-- ==== Sys2Proof/Word.lean ====
section
/-!
DEFINITION. The word types of TFX: a bus word is 32 bits (R38), a quantized channel one byte (R6, R28).
-/

namespace Sys2Proof

/-- A 32-bit bus word: the value of one window register, or a command word (R38, R54). -/
abbrev Word := BitVec 32

/-- A quantized channel (R6: "8 bits"). -/
abbrev Byte := BitVec 8

/-- The 64-bit pattern of a binary64 value, as register `F` stores it (R27). -/
abbrev FloatBits := BitVec 64

end Sys2Proof
end

