-- ==== Sys2Proof/Config.lean ====
section
/-!
DEFINITION. What an implementation fixes: the constants of R6, the three OPEN parameters (`PREMUL_ROUND`, `BASE`,
`BUS_ERROR_ON_BAD_ACCESS`) as plain data, and the one free value of the model.
-/

namespace Sys2Proof.Config

/-- The constant that `ID` reads as (R14). -/
def idValue : Word := 0x31584654

/-- `DIM_MAX`, the largest width or height (R6). -/
def dimMax : Nat := 65535

/-- `NMAX`, the largest curve order (R6, D4). -/
def orderMax : Nat := 65536

/-- The full scale of a native channel (R6, D17). -/
def nativeFullScale : Nat := 65535

/-- The size in bytes of the register window (R36). -/
def windowSize : Nat := 64

/-- How `qbyte` makes an integer (R84): the values of the parameter `PREMUL_ROUND` (R6, D15). -/
inductive RoundMode where
  | nearest
  | truncate
deriving DecidableEq, Repr

/-- The OPEN platform parameters (R6), fixed for one machine. -/
structure Platform where
  /-- `BASE / 64`: the window is aligned to 64 bytes (R36). -/
  baseIndex : Nat
  /-- `BUS_ERROR_ON_BAD_ACCESS` (R39). -/
  busErrorOnBadAccess : Bool
  /-- `PREMUL_ROUND` (D15), read by `PREMUL` alone (R84). -/
  premulRound : RoundMode
deriving DecidableEq, Repr

/-- `BASE`, a multiple of 64 whatever the platform (R36). -/
def Platform.base (p : Platform) : Nat := windowSize * p.baseIndex

/-- The platform of `State.reset`. `PREMUL_ROUND` has the default of R6; the other two are OPEN and their values here are a
DESIGN CHOICE (unsafe, log 3): no statement rests on them. -/
def Platform.default : Platform :=
  { baseIndex := 0, busErrorOnBadAccess := false, premulRound := .nearest }

/-- FREE VALUE (safe, log 9): the bit pattern of a NaN that an operation made. R10 names none. No command writes a NaN result
into a register, so no run reads it. -/
opaque nanBits : FloatBits

end Sys2Proof.Config
end

