-- ==== Sys2Proof/Syntax.lean ====
section
/-!
DEFINITION. The syntax of TFX, whole: its 17 commands (one constructor per row of spec/opcode_table.json), the names of the
window's registers, the bus accesses and inputs that drive it, and the host's assembler statements (R58, R40, R63 to R65).
-/

namespace Sys2Proof

/-- A TFX command (R58). A command has no operand field: its operands are fixed named registers (R55). -/
inductive Instr where
  /-- `NOP` (R80). -/
  | nop
  /-- `CLEAR` (R72). -/
  | clear
  /-- `SETN` (R73). -/
  | setn
  /-- `SETDIM` (R74). -/
  | setdim
  /-- `D2XY` (R76). -/
  | d2xy
  /-- `XY2D` (R77). -/
  | xy2d
  /-- `BOUNDS` (R79). -/
  | bounds
  /-- `QH` (R85). -/
  | qh
  /-- `QC` (R86). -/
  | qc
  /-- `QL` (R87). -/
  | ql
  /-- `QA` (R88). -/
  | qa
  /-- `DQH` (R89). -/
  | dqh
  /-- `DQC` (R90). -/
  | dqc
  /-- `DQL` (R91). -/
  | dql
  /-- `PREMUL` (R92). -/
  | premul
  /-- `UNPREMUL` (R93). -/
  | unpremul
  /-- `NALPHA` (R94). -/
  | nalpha
deriving DecidableEq, Repr

/-- The names of the window's registers (R40). The two reserved offsets have no name. -/
inductive RegName where
  | id
  | status
  | cmd
  | order
  | nreq
  | width
  | height
  | dist
  | coord
  | flo
  | fhi
  | qbyte
  | abyte
  | native
deriving DecidableEq, Repr

/-- The byte offset of a register in the window (R40). -/
def RegName.offset : RegName → Nat
  | .id => 0x00
  | .status => 0x04
  | .cmd => 0x08
  | .order => 0x0C
  | .nreq => 0x10
  | .width => 0x14
  | .height => 0x18
  | .dist => 0x1C
  | .coord => 0x20
  | .flo => 0x24
  | .fhi => 0x28
  | .qbyte => 0x2C
  | .abyte => 0x30
  | .native => 0x34

/-- One access of the host's bus: `MemRead(addr, bytes)` or `MemWrite(addr, bytes, value)` (R9). TFX serves `bytes = 4` alone
(R38); the value of a write of another size is never looked at (R39). -/
inductive Access where
  | read (addr : Nat) (bytes : Nat)
  | write (addr : Nat) (bytes : Nat) (value : Word)
deriving DecidableEq, Repr

/-- The address of an access. -/
def Access.addr : Access → Nat
  | .read a _ => a
  | .write a _ _ => a

/-- The size of an access in bytes. -/
def Access.bytes : Access → Nat
  | .read _ n => n
  | .write _ n _ => n

/-- One thing the outside world does to TFX, in the order it arrives (R47). -/
inductive Event where
  /-- a bus access arrives (R36) -/
  | access (a : Access)
  /-- the reset input is asserted (`true`) or released (`false`) (R117) -/
  | resetLine (asserted : Bool)
  /-- power is removed and restored (R116, R117) -/
  | powerCycle
deriving DecidableEq, Repr

/-- The value a read returned, or the bus error of R39, as the host sees it (R128). -/
inductive Reply where
  | value (v : Word)
  | busError
deriving DecidableEq, Repr

/-- A host assembler statement (R63), the pseudo-statements of R64 among them. A float is given by its pattern (log 16). -/
inductive Stmt where
  /-- `WR <reg>, <value>` -/
  | wr (r : RegName) (value : Word)
  /-- `RD <reg>` -/
  | rd (r : RegName)
  /-- `<MNEMONIC>` -/
  | command (i : Instr)
  /-- `WRF <pattern>` -/
  | wrf (bits : FloatBits)
  /-- `RDF` -/
  | rdf
  /-- `WRXY <x>, <y>` -/
  | wrxy (x y : BitVec 16)
  /-- `WRNAT <nc>, <na>` -/
  | wrnat (nc na : BitVec 16)
  /-- `CHECK` -/
  | check
deriving DecidableEq, Repr

end Sys2Proof
end

