-- ==== Sys2Proof/WellFormed.lean ====
section
/-!
DEFINITION. What is well formed: a command (every one, since a command has no operand field, R55), a command word (R54, R58
to R60) and a bus access that TFX serves (R38).
-/

namespace Sys2Proof

/-- R55: a command has no register field and no immediate, so no command is ill formed. The checks that can fail are those on
its WORD (`CommandWord.wellFormed`). -/
def Instr.wellFormed : Instr → Bool
  | .nop | .clear | .setn | .setdim | .d2xy | .xy2d | .bounds => true
  | .qh | .qc | .ql | .qa | .dqh | .dqc | .dql => true
  | .premul | .unpremul | .nalpha => true

/-- R60: the reserved bits of a command word are 0. -/
def CommandWord.reservedBitsZero (w : Word) : Bool := w.toNat / 256 == 0

/-- R59: the opcode is outside every reserved range. -/
def CommandWord.opcodeImplemented (w : Word) : Bool :=
  let op := w.toNat % 256
  op ≤ 0x06 || (0x10 ≤ op && op ≤ 0x13) || (0x18 ≤ op && op ≤ 0x1A) || (0x20 ≤ op && op ≤ 0x22)

/-- A word that encodes a command (R57). -/
def CommandWord.wellFormed (w : Word) : Bool :=
  CommandWord.opcodeImplemented w && CommandWord.reservedBitsZero w

/-- R36: the address lies in the window. -/
def Access.inWindow (p : Config.Platform) (a : Access) : Bool :=
  p.base ≤ a.addr && a.addr < p.base + Config.windowSize

/-- R38: the access is 32 bits wide. -/
def Access.fullWord (a : Access) : Bool := a.bytes == 4

/-- R38: the address is a multiple of 4. -/
def Access.aligned (a : Access) : Bool := a.addr % 4 == 0

/-- An access that TFX serves (R38). -/
def Access.wellFormed (p : Config.Platform) (a : Access) : Bool :=
  a.inWindow p && a.fullWord && a.aligned

end Sys2Proof
end

