-- ==== Sys2Proof/Decode.lean ====
section
/-!
DEFINITION. The command decoder (R57), total on 32-bit words and rejecting by name, the encoder (R58) after it, and the
encoding of host statements as bus accesses (R63 to R65).
-/

namespace Sys2Proof

/-- Why a word is no command (R57). Both reasons raise ILLEGAL_COMMAND (R101). -/
inductive DecodeError where
  /-- R59: the opcode is reserved. -/
  | reservedOpcode (op : Byte)
  /-- R60: a bit of `RSV` is set. -/
  | reservedBits
deriving DecidableEq, Repr

/-- The field `OP`, bits 7:0 (R54). -/
def opField (w : Word) : Byte := w.extractLsb' 0 8

/-- The field `RSV`, bits 31:8 (R54). -/
def rsvField (w : Word) : BitVec 24 := w.extractLsb' 8 24

/-- The opcode map (R58); every opcode it does not list is reserved (R59). -/
def opcodeMap (op : Byte) : Option Instr :=
  match op.toNat with
  | 0x00 => some .nop
  | 0x01 => some .clear
  | 0x02 => some .setn
  | 0x03 => some .setdim
  | 0x04 => some .d2xy
  | 0x05 => some .xy2d
  | 0x06 => some .bounds
  | 0x10 => some .qh
  | 0x11 => some .qc
  | 0x12 => some .ql
  | 0x13 => some .qa
  | 0x18 => some .dqh
  | 0x19 => some .dqc
  | 0x1A => some .dql
  | 0x20 => some .premul
  | 0x21 => some .unpremul
  | 0x22 => some .nalpha
  | _ => none

/-- R57: the opcode is checked first, then the reserved bits. -/
def decode (w : Word) : Except DecodeError Instr :=
  match opcodeMap (opField w) with
  | none => .error (.reservedOpcode (opField w))
  | some i => if rsvField w = 0 then .ok i else .error .reservedBits

/-- The opcode of a command (R58). -/
def opcode : Instr → Byte
  | .nop => 0x00
  | .clear => 0x01
  | .setn => 0x02
  | .setdim => 0x03
  | .d2xy => 0x04
  | .xy2d => 0x05
  | .bounds => 0x06
  | .qh => 0x10
  | .qc => 0x11
  | .ql => 0x12
  | .qa => 0x13
  | .dqh => 0x18
  | .dqc => 0x19
  | .dql => 0x1A
  | .premul => 0x20
  | .unpremul => 0x21
  | .nalpha => 0x22

/-- The word of a command: `RSV = 0` above the opcode (R54, R58). -/
def encode (i : Instr) : Word := 0#24 ++ opcode i

/-- The command the decoder reads from an instruction of `nbits` bits whose value is `w`: the bits above `nbits` are 0, and
TFX's one command word is 32 bits (R54). A value with a bit above bit 31 is no command word. -/
def decodeTableWord (nbits w : Nat) : Option Instr :=
  if w % 2 ^ nbits < 2 ^ 32 then
    match decode (BitVec.ofNat 32 (w % 2 ^ nbits)) with
    | .ok i => some i
    | .error _ => none
  else none

/-- `WR <reg>, <value>` as an access (R63). -/
def wrAccess (p : Config.Platform) (r : RegName) (v : Word) : Access := .write (p.base + r.offset) 4 v

/-- `RD <reg>` as an access (R63). -/
def rdAccess (p : Config.Platform) (r : RegName) : Access := .read (p.base + r.offset) 4

/-- The accesses of a host statement (R63, R64), in order. -/
def stmtAccesses (p : Config.Platform) : Stmt → List Access
  | .wr r v => [wrAccess p r v]
  | .rd r => [rdAccess p r]
  | .command i => [wrAccess p .cmd (encode i)]
  | .wrf b => [wrAccess p .flo (b.extractLsb' 0 32), wrAccess p .fhi (b.extractLsb' 32 32)]
  | .rdf => [rdAccess p .flo, rdAccess p .fhi]
  | .wrxy x y => [wrAccess p .coord (y ++ x)]
  | .wrnat nc na => [wrAccess p .native (na ++ nc)]
  | .check => [rdAccess p .status]

/-- A host program as the list of bus accesses it performs (R65). -/
def programAccesses (p : Config.Platform) (prog : List Stmt) : List Access :=
  prog.flatMap (stmtAccesses p)

/-- The set-up of an encode or decode call for a `w × h` image (R121). -/
def callSetup (w h : Word) : List Stmt :=
  [.command .clear, .wr .width w, .wr .height h, .command .setdim, .rd .status]

/-- The statements a call makes for one curve distance (R121). -/
def callVisit (d : Word) : List Stmt :=
  [.wr .dist d, .command .d2xy, .command .bounds, .rd .coord, .rd .status]

end Sys2Proof
end

