-- ==== Sys2Proof/Machine/State.lean ====
section
/-!
DEFINITION. The state of TFX as plain data: the registers of R13, the level of the reset input, the platform's parameters,
and the model's own two lists (the host events still to arrive, the replies given). And the reasons a step can stop.
-/

namespace Sys2Proof.Machine

open Sys2Proof.Config

/-- The registers of R13. `ID` is a constant and `CMD` holds no state (R14, R20; log 11), so neither has a field; the
reserved bits of `STATUS` are not stored (R15; log 12). -/
structure Regs where
  /-- `STATUS.ERR_LAST` (R16) -/
  errLast : BitVec 4
  /-- `STATUS.ERR_FIRST` (R17) -/
  errFirst : BitVec 4
  /-- `STATUS.INB` (R18) -/
  inb : Bool
  /-- `STATUS.NAN` (R19) -/
  nan : Bool
  /-- `ORDER` (R21) -/
  order : BitVec 17
  /-- `NREQ` (R22) -/
  nreq : Word
  /-- `WIDTH` (R23) -/
  width : Word
  /-- `HEIGHT` (R24) -/
  height : Word
  /-- `DIST` (R25) -/
  dist : Word
  /-- `COORD`: `X` in bits 15:0, `Y` in bits 31:16 (R26) -/
  coord : Word
  /-- `F`, the pattern of a binary64 value (R27) -/
  f : FloatBits
  /-- `QBYTE` (R28) -/
  qbyte : Byte
  /-- `ABYTE` (R29) -/
  abyte : Byte
  /-- `NATIVE`: `NC` in bits 15:0, `NA` in bits 31:16 (R30) -/
  native : Word
deriving DecidableEq, Repr

/-- The register values after reset (R35). -/
def Regs.reset : Regs :=
  { errLast := 0, errFirst := 0, inb := false, nan := false, order := 1, nreq := 1, width := 0, height := 0,
    dist := 0, coord := 0, f := 0, qbyte := 0, abyte := 0, native := 0 }

/-- The machine: TFX, its platform's parameters, and what the outside world has sent and been answered. -/
structure State where
  /-- the registers (R13) -/
  regs : Regs
  /-- the reset input is asserted (R117) -/
  inReset : Bool
  /-- the OPEN parameters (R6); no step changes them -/
  platform : Platform
  /-- MODEL: the host events that have yet to arrive, the next one first (R47, R65; log 1) -/
  pending : List Event
  /-- MODEL: what the host's reads returned, oldest first (R128; log 2) -/
  replies : List Reply
deriving DecidableEq, Repr

/-- The machine after reset on a given platform: every register at its reset value (R35), the reset input released (R117), and no
access yet (R119). -/
def State.resetOn (p : Platform) : State :=
  { regs := Regs.reset, inReset := false, platform := p, pending := [], replies := [] }

/-- The machine right after reset. -/
def State.reset : State := State.resetOn Platform.default

/-- Why a step stops. No command stops the machine: a command that fails leaves a code in `STATUS` and goes on (R102). -/
inductive Fault where
  /-- Raised by the bus for an access that is not 32 bits wide or not aligned, on a platform without bus errors: "A model must
  treat such an access as stuck" (R39). Safe. -/
  | stuckBadAccess
  /-- Raised by the bus for an access while the reset input is asserted: none is served then (R117, I20). Safe. -/
  | stuckInReset
  /-- Raised by the bus for an access whose first byte lies outside the window, which is not TFX's (R36; logs 5 and 18). Safe. -/
  | outsideWindow
deriving DecidableEq, Repr

/-- Why an instruction has no meaning. No arm of `exec` answers with it. -/
inductive Refusal where
  /-- For an arm of `exec` with no meaning yet; there is none. Safe. -/
  | notModelled (mnemonic : String)
deriving DecidableEq, Repr

end Sys2Proof.Machine
end

