-- ==== Sys2Proof/Machine/Flags.lean ====
section
/-!
DEFINITION. `STATUS`: its layout (R15), the error codes (R101), and every way a command changes its fields (R16 to R19).
-/

namespace Sys2Proof.Machine

/-- The error codes a command can raise (R101); code 0 is success and codes 6 to 15 are never produced. -/
inductive ErrorCode where
  | illegalCommand
  | invalidOrder
  | unsupportedDimensions
  | distanceOutOfRange
  | coordinateOutOfRange
deriving DecidableEq, Repr

/-- The 4-bit code of an error (R101). -/
def errorNumber : ErrorCode → BitVec 4
  | .illegalCommand => 1
  | .invalidOrder => 2
  | .unsupportedDimensions => 3
  | .distanceOutOfRange => 4
  | .coordinateOutOfRange => 5

/-- `STATUS` as the bus reads it: `ERR_LAST` 3:0, `ERR_FIRST` 7:4, `INB` 8, `NAN` 9, zeros above (R15, R41). -/
def statusWord (r : Regs) : Word :=
  0#22 ++ BitVec.ofBool r.nan ++ BitVec.ofBool r.inb ++ r.errFirst ++ r.errLast

/-- R104: a command that succeeds leaves `ERR_LAST = 0` and keeps `ERR_FIRST`. -/
def recordSuccess (r : Regs) : Regs := { r with errLast := 0 }

/-- R102: a command that fails writes `ERR_LAST`, and `ERR_FIRST` where that is still 0 (R17). -/
def recordError (e : ErrorCode) (r : Regs) : Regs :=
  { r with errLast := errorNumber e, errFirst := if r.errFirst = 0 then errorNumber e else r.errFirst }

/-- R19: `NAN` is sticky; only a NaN sets it. -/
def stickyNan (met : Bool) (r : Regs) : Regs := { r with nan := r.nan || met }

/-- R79: `INB` takes the result of `BOUNDS`. -/
def writeInb (inside : Bool) (r : Regs) : Regs := { r with inb := inside }

/-- R72: what `CLEAR` sets to 0 besides `ERR_LAST`. -/
def clearSticky (r : Regs) : Regs := { r with errFirst := 0, nan := false }

end Sys2Proof.Machine
end

