-- ==== Sys2Proof/Machine/Float.lean ====
section
/-!
DEFINITION. Binary64 (R10, R11): the value a pattern encodes, the pattern of a value, add, subtract, multiply, divide with
rounding to nearest, ties to even, the ordered comparisons, and the two roundings to an integer.

Every finite binary64 value is a whole multiple of 2^-1074, the smallest subnormal. The model counts in that unit: it converts
operands to integers, computes exactly, and rounds once at the end.
-/

namespace Sys2Proof.Machine

/-- A binary64 value. A NaN has no payload here: R10 gives none a meaning (log 9). -/
inductive F64 where
  /-- every NaN encoding (R10) -/
  | nan
  /-- an infinity; `neg` is its sign -/
  | inf (neg : Bool)
  /-- `units * 2^-1074`, with its sign, so that `-0.0` and `+0.0` differ -/
  | fin (neg : Bool) (units : Nat)
deriving DecidableEq, Repr

/-- `2^k`, in factors with small exponents so that Lean evaluates it at once (`pow2_eq` in Laws). -/
def pow2 (k : Nat) : Nat := (2 ^ 128) ^ (k / 128) * 2 ^ (k % 128)

/-- The number of units in `1.0`: 2^1074. -/
def unitsPerOne : Nat := pow2 1074

/-- The first value above the finite range, 2^1024, in units. -/
def unitsLimit : Nat := pow2 2098

/-- `f64(k)` for a natural `k` (R10): exact for every integer TFX converts, each at most 65535. -/
def F64.ofNat (k : Nat) : F64 := .fin false (k * unitsPerOne)

/-- `f64bits(u)`: the value of a pattern (R10: sign bit 63, biased exponent bits 62:52, fraction bits 51:0). -/
def f64bits (u : FloatBits) : F64 :=
  let neg := u.getLsbD 63
  let exponent := (u.extractLsb' 52 11).toNat
  let fraction := (u.extractLsb' 0 52).toNat
  if exponent = 2047 then
    if fraction = 0 then .inf neg else .nan
  else if exponent = 0 then .fin neg fraction
  else .fin neg ((pow2 52 + fraction) * pow2 (exponent - 1))

/-- The pattern of the sign and the lower 63 bits. -/
def signedBits (neg : Bool) (magnitude : Nat) : FloatBits :=
  BitVec.ofBool neg ++ BitVec.ofNat 63 magnitude

/-- How far above the unit the last place of a value of `units` lies: a binary64 significand has 53 bits. -/
def lastPlace (units : Nat) : Nat := Nat.log2 units - 52

/-- `bits(f)`: the pattern of a value (R10). For a NaN it is the free value (log 9). -/
def F64.bits : F64 → FloatBits
  | .nan => Config.nanBits
  | .inf neg => signedBits neg (2047 * pow2 52)
  | .fin neg units => signedBits neg (units / pow2 (lastPlace units) + lastPlace units * pow2 52)

/-- `isNaN(f)` (R10). -/
def F64.isNaN : F64 → Bool
  | .nan => true
  | _ => false

/-- `num / den` to the nearest integer, ties to the even one. -/
def divNearestEven (num den : Nat) : Nat :=
  let q := num / den
  let r := num % den
  if 2 * r < den then q
  else if den < 2 * r then q + 1
  else q + q % 2

/-- The exact value `num / den` units, with its sign, rounded to the nearest binary64 value, ties to even: the multiple of the
last place nearest to it, or an infinity where that lies above the finite range (R10). -/
def F64.round (neg : Bool) (num den : Nat) : F64 :=
  let ulp := pow2 (lastPlace (num / den))
  let units := divNearestEven num (den * ulp) * ulp
  if units < unitsLimit then .fin neg units else .inf neg

/-- The sign changed. -/
def F64.neg : F64 → F64
  | .nan => .nan
  | .inf s => .inf (!s)
  | .fin s m => .fin (!s) m

/-- A sign and a number of units as an integer. -/
def signedUnits (neg : Bool) (units : Nat) : Int := if neg then -(units : Int) else units

/-- `f_add` (R10). Of the points R10 leaves to IEEE 754 (log 8): infinities of unlike sign give a NaN, and an exact zero sum is
`-0.0` only where both operands are `-0.0`. -/
def fAdd : F64 → F64 → F64
  | .nan, _ | _, .nan => .nan
  | .inf s, .inf t => if s = t then .inf s else .nan
  | .inf s, .fin _ _ => .inf s
  | .fin _ _, .inf t => .inf t
  | .fin s m, .fin t n =>
    let sum := signedUnits s m + signedUnits t n
    if sum = 0 then .fin (s && t) 0 else F64.round (decide (sum < 0)) sum.natAbs 1

/-- `f_sub` (R10). -/
def fSub (a b : F64) : F64 := fAdd a b.neg

/-- `f_mul` (R10). An infinity times a zero is a NaN (R92). -/
def fMul : F64 → F64 → F64
  | .nan, _ | _, .nan => .nan
  | .inf s, .inf t => .inf (s ^^ t)
  | .inf s, .fin t n => if n = 0 then .nan else .inf (s ^^ t)
  | .fin s m, .inf t => if m = 0 then .nan else .inf (s ^^ t)
  | .fin s m, .fin t n => F64.round (s ^^ t) (m * n) unitsPerOne

/-- `f_div` (R10). Of the points R10 leaves to IEEE 754 (log 8): `0/0` and an infinity by an infinity are NaNs, any other value by
zero is an infinity. No TFX rule divides by zero. -/
def fDiv : F64 → F64 → F64
  | .nan, _ | _, .nan => .nan
  | .inf _, .inf _ => .nan
  | .inf s, .fin t _ => .inf (s ^^ t)
  | .fin s _, .inf t => .fin (s ^^ t) 0
  | .fin s m, .fin t n =>
    if n = 0 then (if m = 0 then .nan else .inf (s ^^ t))
    else F64.round (s ^^ t) (m * unitsPerOne) n

/-- The place of a value in the order: its signed units, an infinity beyond every finite value. A NaN has none. -/
def F64.key : F64 → Option Int
  | .nan => none
  | .inf s => some (signedUnits s unitsLimit)
  | .fin s m => some (signedUnits s m)

/-- `a < b` (R10): false when either operand is a NaN. -/
def F64.lt (a b : F64) : Bool :=
  match a.key, b.key with
  | some x, some y => decide (x < y)
  | _, _ => false

/-- `a ≤ b` (R10): false when either operand is a NaN; `-0.0` equals `+0.0`. -/
def F64.le (a b : F64) : Bool :=
  match a.key, b.key with
  | some x, some y => decide (x ≤ y)
  | _, _ => false

/-- `round_near(t)` for `0 < t < 255` (R11): the nearest integer to the exact value, a half upwards. -/
def roundNear : F64 → Byte
  | .fin _ m => BitVec.ofNat 8 ((2 * m + unitsPerOne) / (2 * unitsPerOne))
  | _ => 0

/-- `trunc(t)` for `0 < t < 255` (R11): the largest integer not above the value. -/
def trunc : F64 → Byte
  | .fin _ m => BitVec.ofNat 8 (m / unitsPerOne)
  | _ => 0

end Sys2Proof.Machine
end

