-- ==== Sys2Proof/Machine/Operands.lean ====
section
/-!
DEFINITION. Operand assembly (R56): what a command reads from the registers, each as an unsigned integer or a binary64 value.
-/

namespace Sys2Proof.Machine

/-- `COORD[15:0]`, the column `x` (R26, R56). -/
def Regs.coordX (r : Regs) : Nat := (r.coord.extractLsb' 0 16).toNat

/-- `COORD[31:16]`, the row `y` (R26, R56). -/
def Regs.coordY (r : Regs) : Nat := (r.coord.extractLsb' 16 16).toNat

/-- `NATIVE[15:0]`, the native premultiplied channel `NC` (R30, R56). -/
def Regs.nativeNC (r : Regs) : Nat := (r.native.extractLsb' 0 16).toNat

/-- `NATIVE[31:16]`, the native alpha `NA` (R30, R56). -/
def Regs.nativeNA (r : Regs) : Nat := (r.native.extractLsb' 16 16).toNat

/-- `F` read as binary64 (R27, R56). -/
def Regs.float (r : Regs) : F64 := f64bits r.f

/-- `QBYTE` converted exactly to binary64 (R56). -/
def Regs.qbyteFloat (r : Regs) : F64 := F64.ofNat r.qbyte.toNat

/-- `ABYTE` converted exactly to binary64 (R56). -/
def Regs.abyteFloat (r : Regs) : F64 := F64.ofNat r.abyte.toNat

/-- `{y[15:0], x[15:0]}`: a coordinate as the word `COORD` holds (R26, R76). -/
def coordWord (x y : Nat) : Word := BitVec.ofNat 16 y ++ BitVec.ofNat 16 x

end Sys2Proof.Machine
end

