-- ==== Sys2Proof/Machine/Ops.lean ====
section
/-!
DEFINITION. The shared operations: how a command ends (the error procedure R102, which is this hardware's taking of an
exception, and success R104; there is no return from an error, R107, R108), and reading and writing the window (R40 to R43).
-/

namespace Sys2Proof.Machine

open Sys2Proof.Config

/-- `raise Error(e)` (R102): nothing but `ERR_LAST` and, where it was 0, `ERR_FIRST` changes, and the machine goes on. -/
def raiseError (e : ErrorCode) (s : State) : Host.Outcome State Fault Refusal :=
  .next { s with regs := recordError e s.regs }

/-- A command that succeeds writes its destinations, given as the new registers, and `ERR_LAST <- 0`, together (R32, R104). -/
def succeed (r : Regs) (s : State) : Host.Outcome State Fault Refusal :=
  .next { s with regs := recordSuccess r }

/-- The register at a window offset (R40). The reserved offsets 0x38 and 0x3C hold none (R41). -/
def regAt (off : Nat) : Option RegName :=
  match off with
  | 0x00 => some .id
  | 0x04 => some .status
  | 0x08 => some .cmd
  | 0x0C => some .order
  | 0x10 => some .nreq
  | 0x14 => some .width
  | 0x18 => some .height
  | 0x1C => some .dist
  | 0x20 => some .coord
  | 0x24 => some .flo
  | 0x28 => some .fhi
  | 0x2C => some .qbyte
  | 0x30 => some .abyte
  | 0x34 => some .native
  | _ => none

/-- The word a register reads as (R40): `ID` is a constant (R14), `CMD` reads 0 (R20), reserved bits read 0 (R41). -/
def readReg (r : Regs) : RegName → Word
  | .id => idValue
  | .status => statusWord r
  | .cmd => 0
  | .order => r.order.setWidth 32
  | .nreq => r.nreq
  | .width => r.width
  | .height => r.height
  | .dist => r.dist
  | .coord => r.coord
  | .flo => r.f.extractLsb' 0 32
  | .fhi => r.f.extractLsb' 32 32
  | .qbyte => r.qbyte.setWidth 32
  | .abyte => r.abyte.setWidth 32
  | .native => r.native

/-- A word written to a register other than `CMD` (R40): a read-only register keeps its value, one half of `F` keeps the other
(R27), the reserved bits of `QBYTE` and `ABYTE` are ignored (R41). A write to `CMD` stores nothing (R20): it runs a command
(`runCommand`). -/
def writeReg (r : Regs) (v : Word) : RegName → Regs
  | .id => r
  | .status => r
  | .cmd => r
  | .order => r
  | .nreq => { r with nreq := v }
  | .width => { r with width := v }
  | .height => { r with height := v }
  | .dist => { r with dist := v }
  | .coord => { r with coord := v }
  | .flo => { r with f := r.f.extractLsb' 32 32 ++ v }
  | .fhi => { r with f := v ++ r.f.extractLsb' 0 32 }
  | .qbyte => { r with qbyte := v.setWidth 8 }
  | .abyte => { r with abyte := v.setWidth 8 }
  | .native => { r with native := v }

/-- The word at a window offset; a reserved offset reads 0 (R41). -/
def readWindow (off : Nat) (r : Regs) : Word :=
  match regAt off with
  | some name => readReg r name
  | none => 0

/-- A word written at a window offset other than that of `CMD`; a reserved offset ignores it (R41). -/
def writeWindow (off : Nat) (v : Word) (r : Regs) : Regs :=
  match regAt off with
  | some name => writeReg r v name
  | none => r

/-- The byte at a window offset, little-endian (R37): byte `off + i` of the word at `off` is its bits `8i+7 : 8i`. -/
def windowByte (off : Nat) (r : Regs) : Byte :=
  (readWindow (off / 4 * 4) r).extractLsb' (8 * (off % 4)) 8

/-- The window offset of a bus address, where it lies in the window (R36). DESIGN CHOICE (log 18, safe): an access is placed by the
address of its first byte alone, so one that begins below `BASE` and reaches into the window counts as outside it. -/
def windowOffset (p : Platform) (addr : Nat) : Option Nat :=
  if p.base ≤ addr ∧ addr < p.base + windowSize then some (addr - p.base) else none

/-- The host is given a reply (R128). -/
def reply (a : Reply) (s : State) : State := { s with replies := s.replies ++ [a] }

/-- An access in the window that TFX does not serve (R39): a host-side bus error with TFX unchanged where the platform reports
one (log 4), stuck otherwise. -/
def badAccess (s : State) : Host.Outcome State Fault Refusal :=
  if s.platform.busErrorOnBadAccess then .next (reply .busError s) else .fault .stuckBadAccess

/-- Reset released, or power restored: every register at its reset value (R35, R116, R117). -/
def resetRegs (s : State) : State := { s with regs := Regs.reset }

/-- The reset input changes level (R117): registers take their reset values when it is released. Releasing an input that was not
asserted changes nothing (log 6). -/
def resetLine (asserted : Bool) (s : State) : State :=
  if asserted then { s with inReset := true }
  else if s.inReset then { resetRegs s with inReset := false }
  else s

end Sys2Proof.Machine
end

