-- ==== Sys2Proof/Machine/Colour.lean ====
section
/-!
DEFINITION. The meanings of the colour commands (41_color.md). Every formula is evaluated left to right as written, one rounding
per operation (D11); no colour command fails (R83).
-/

namespace Sys2Proof.Machine

open Sys2Proof.Config

/-- `qbyte(t, mode)` (R84): the byte, and whether `t` was a NaN. -/
def qbyteStep (t : F64) (mode : RoundMode) : Byte × Bool :=
  if t.isNaN then (0, true)
  else if F64.le (F64.ofNat 255) t then (255, false)
  else if F64.le t (F64.ofNat 0) then (0, false)
  else match mode with
    | .nearest => (roundNear t, false)
    | .truncate => (trunc t, false)

/-- `clamp1(v)` (R99). -/
def clamp1 (v : F64) : F64 :=
  if F64.lt v (F64.ofNat 1).neg then (F64.ofNat 1).neg
  else if F64.lt (F64.ofNat 1) v then F64.ofNat 1
  else v

/-- A float-to-byte command ends: `QBYTE` is written, `NAN` is set for a NaN, and it succeeds (R83, R84). -/
def finishByte (q : Byte × Bool) (s : State) : Host.Outcome State Fault Refusal :=
  succeed (stickyNan q.2 { s.regs with qbyte := q.1 }) s

/-- A command whose result is a float ends: `F` is written, `NAN` is not, and it succeeds (R83). -/
def finishFloat (v : F64) (s : State) : Host.Outcome State Fault Refusal :=
  succeed { s.regs with f := v.bits } s

/-- `((v + 1) / 2) * 255` of the clamped value: the formula of `QC` and `QL` (R86, R87). -/
def quantizeAxis (v : F64) : F64 :=
  fMul (fDiv (fAdd (clamp1 v) (F64.ofNat 1)) (F64.ofNat 2)) (F64.ofNat 255)

/-- `(b / 255) * 2 - 1`: the formula of `DQC` and `DQL` (R90, R91). -/
def dequantizeAxis (b : F64) : F64 :=
  fSub (fMul (fDiv b (F64.ofNat 255)) (F64.ofNat 2)) (F64.ofNat 1)

/-- `QH` (R85): `(h / 360) * 255` to a byte. -/
def execQh (s : State) : Host.Outcome State Fault Refusal :=
  let t := fMul (fDiv s.regs.float (F64.ofNat 360)) (F64.ofNat 255)
  finishByte (qbyteStep t .nearest) s

/-- `QC` (R86). -/
def execQc (s : State) : Host.Outcome State Fault Refusal :=
  finishByte (qbyteStep (quantizeAxis s.regs.float) .nearest) s

/-- `QL` (R87). -/
def execQl (s : State) : Host.Outcome State Fault Refusal :=
  finishByte (qbyteStep (quantizeAxis s.regs.float) .nearest) s

/-- `QA` (R88): `a * 255` to a byte. -/
def execQa (s : State) : Host.Outcome State Fault Refusal :=
  let t := fMul s.regs.float (F64.ofNat 255)
  finishByte (qbyteStep t .nearest) s

/-- `DQH` (R89): `(b / 255) * 359`; the factor is 359, not the 360 of `QH` (D16). -/
def execDqh (s : State) : Host.Outcome State Fault Refusal :=
  finishFloat (fMul (fDiv s.regs.qbyteFloat (F64.ofNat 255)) (F64.ofNat 359)) s

/-- `DQC` (R90). -/
def execDqc (s : State) : Host.Outcome State Fault Refusal :=
  finishFloat (dequantizeAxis s.regs.qbyteFloat) s

/-- `DQL` (R91). -/
def execDql (s : State) : Host.Outcome State Fault Refusal :=
  finishFloat (dequantizeAxis s.regs.qbyteFloat) s

/-- `PREMUL` (R92): `component * alpha_byte` to a byte, by the platform's `PREMUL_ROUND` (D15). -/
def execPremul (s : State) : Host.Outcome State Fault Refusal :=
  let p := fMul s.regs.float s.regs.abyteFloat
  finishByte (qbyteStep p s.platform.premulRound) s

/-- `UNPREMUL` (R93): `min(NC / NA, 1.0)`, and `+0.0` where the alpha is 0, with no division. -/
def execUnpremul (s : State) : Host.Outcome State Fault Refusal :=
  if s.regs.nativeNA = 0 then finishFloat (F64.ofNat 0) s
  else
    let q := fDiv (F64.ofNat s.regs.nativeNC) (F64.ofNat s.regs.nativeNA)
    finishFloat (if F64.lt (F64.ofNat 1) q then F64.ofNat 1 else q) s

/-- `NALPHA` (R94): `NA / 65535`. -/
def execNalpha (s : State) : Host.Outcome State Fault Refusal :=
  finishFloat (fDiv (F64.ofNat s.regs.nativeNA) (F64.ofNat nativeFullScale)) s

end Sys2Proof.Machine
end

