-- ==== Sys2Proof/Machine/Control.lean ====
section
/-!
DEFINITION. The meanings of the control commands (40_curve.md section 2).
-/

namespace Sys2Proof.Machine

/-- `NOP` (R80): `ERR_LAST <- 0` and nothing else. -/
def execNop (s : State) : Host.Outcome State Fault Refusal := succeed s.regs s

/-- `CLEAR` (R72): `ERR_FIRST`, `NAN` and `ERR_LAST` to 0; `INB` and every data register unchanged. -/
def execClear (s : State) : Host.Outcome State Fault Refusal := succeed (clearSticky s.regs) s

end Sys2Proof.Machine
end

