-- ==== Sys2Proof/Machine/Hilbert.lean ====
section
/-!
DEFINITION. The curve's helpers (R67 to R71), on mathematical integers (R66). Each loop of the spec is a recursion over a
number of passes that is at least the number the loop makes for every value its registers can hold (log 10).
-/

namespace Sys2Proof.Machine

/-- `is_pow2(v)` (R67). -/
def isPow2 (v : Nat) : Bool := v != 0 && (v &&& (v - 1)) == 0

/-- The loop of `npot` (R68): `p` doubles while it is below `m`. -/
def npotLoop : Nat → Nat → Nat → Nat
  | 0, p, _ => p
  | k + 1, p, m => if p < m then npotLoop k (2 * p) m else p

/-- `npot(m)` (R68) for `m ≤ 65535`: the loop makes at most 16 passes. -/
def npot (m : Nat) : Nat := npotLoop 16 1 m

/-- `rot(s, x, y, rx, ry)` (R69). -/
def rot (s x y rx ry : Nat) : Nat × Nat :=
  if ry = 0 then
    if rx = 1 then (s - 1 - y, s - 1 - x) else (y, x)
  else (x, y)

/-- The loop of `hilbert_d2xy` (R70): while `s < n`. -/
def d2xyLoop (n : Nat) : Nat → Nat → Nat → Nat → Nat → Nat × Nat
  | 0, _, x, y, _ => (x, y)
  | k + 1, s, x, y, t =>
    if s < n then
      let rx := (t >>> 1) &&& 1
      let ry := (t &&& 1) ^^^ rx
      let p := rot s x y rx ry
      d2xyLoop n k (2 * s) (p.1 + s * rx) (p.2 + s * ry) (t >>> 2)
    else (x, y)

/-- `hilbert_d2xy(n, d)` (R70). `ORDER` is below 2^17, so the loop makes at most 17 passes. -/
def hilbertD2xy (n d : Nat) : Nat × Nat := d2xyLoop n 17 1 0 0 d

/-- The loop of `hilbert_xy2d` (R71): while `s > 0`. -/
def xy2dLoop (n : Nat) : Nat → Nat → Nat → Nat → Nat → Nat
  | 0, _, _, _, d => d
  | k + 1, s, x, y, d =>
    if 0 < s then
      let rx := if x &&& s ≠ 0 then 1 else 0
      let ry := if y &&& s ≠ 0 then 1 else 0
      let p := rot n x y rx ry
      xy2dLoop n k (s >>> 1) p.1 p.2 (d + s * s * ((3 * rx) ^^^ ry))
    else d

/-- `hilbert_xy2d(n, x, y)` (R71). `ORDER` is below 2^17, so the loop makes at most 17 passes. -/
def hilbertXy2d (n x y : Nat) : Nat := xy2dLoop n 17 (n >>> 1) x y 0

end Sys2Proof.Machine
end

