-- ==== Sys2Proof/Machine/Curve.lean ====
section
/-!
DEFINITION. The meanings of the curve commands (40_curve.md sections 3 and 4).
-/

namespace Sys2Proof.Machine

open Sys2Proof.Config

/-- `SETN` (R73): install the order `NREQ`, a power of two in [1, 65536]; any other raises INVALID_ORDER. -/
def execSetn (s : State) : Host.Outcome State Fault Refusal :=
  let v := s.regs.nreq.toNat
  if !isPow2 v || decide (orderMax < v) then raiseError .invalidOrder s
  else succeed { s.regs with order := BitVec.ofNat 17 v } s

/-- `SETDIM` (R74): derive the order from `WIDTH` and `HEIGHT`; an axis above 65535 raises UNSUPPORTED_DIMENSIONS. -/
def execSetdim (s : State) : Host.Outcome State Fault Refusal :=
  let w := s.regs.width.toNat
  let h := s.regs.height.toNat
  if dimMax < w ∨ dimMax < h then raiseError .unsupportedDimensions s
  else succeed { s.regs with order := BitVec.ofNat 17 (npot (max w h)) } s

/-- `D2XY` (R76): `COORD` of the distance `DIST`; a distance of `n²` or more raises DISTANCE_OUT_OF_RANGE. `n * n` is exact. -/
def execD2xy (s : State) : Host.Outcome State Fault Refusal :=
  let n := s.regs.order.toNat
  let d := s.regs.dist.toNat
  if n * n ≤ d then raiseError .distanceOutOfRange s
  else
    let p := hilbertD2xy n d
    succeed { s.regs with coord := coordWord p.1 p.2 } s

/-- `XY2D` (R77): `DIST` of the coordinate `COORD`; one outside the grid raises COORDINATE_OUT_OF_RANGE. -/
def execXy2d (s : State) : Host.Outcome State Fault Refusal :=
  let n := s.regs.order.toNat
  let x := s.regs.coordX
  let y := s.regs.coordY
  if n ≤ x ∨ n ≤ y then raiseError .coordinateOutOfRange s
  else succeed { s.regs with dist := BitVec.ofNat 32 (hilbertXy2d n x y) } s

/-- `BOUNDS` (R79): `INB` says whether the coordinate lies in `WIDTH × HEIGHT`; `ORDER` is not read. -/
def execBounds (s : State) : Host.Outcome State Fault Refusal :=
  let inside := decide (s.regs.coordX < s.regs.width.toNat ∧ s.regs.coordY < s.regs.height.toNat)
  succeed (writeInb inside s.regs) s

end Sys2Proof.Machine
end

