-- ==== Sys2Proof/Machine/Dispatch.lean ====
section
/-!
DEFINITION. One arm per command: the call of its meaning.
-/

namespace Sys2Proof.Machine

def exec (i : Instr) (s : State) : Host.Outcome State Fault Refusal :=
  match i with
  | .nop => Sys2Proof.Machine.execNop s
  | .clear => Sys2Proof.Machine.execClear s
  | .setn => Sys2Proof.Machine.execSetn s
  | .setdim => Sys2Proof.Machine.execSetdim s
  | .d2xy => Sys2Proof.Machine.execD2xy s
  | .xy2d => Sys2Proof.Machine.execXy2d s
  | .bounds => Sys2Proof.Machine.execBounds s
  | .qh => Sys2Proof.Machine.execQh s
  | .qc => Sys2Proof.Machine.execQc s
  | .ql => Sys2Proof.Machine.execQl s
  | .qa => Sys2Proof.Machine.execQa s
  | .dqh => Sys2Proof.Machine.execDqh s
  | .dqc => Sys2Proof.Machine.execDqc s
  | .dql => Sys2Proof.Machine.execDql s
  | .premul => Sys2Proof.Machine.execPremul s
  | .unpremul => Sys2Proof.Machine.execUnpremul s
  | .nalpha => Sys2Proof.Machine.execNalpha s

end Sys2Proof.Machine
end

