-- ==== Sys2Proof/Machine/Bus.lean ====
section
/-!
DEFINITION. What one host event does (R36 to R43, R57, R117): a bus access is served or not, a write to `CMD` is decoded and its
command run, the reset input and the power put the registers at their reset values.
-/

namespace Sys2Proof.Machine

open Sys2Proof.Config

/-- A word written to `CMD` (R20, R57): the command it encodes runs; any other word raises ILLEGAL_COMMAND. -/
def runCommand (w : Word) (s : State) : Host.Outcome State Fault Refusal :=
  match decode w with
  | .ok i => exec i s
  | .error _ => raiseError .illegalCommand s

/-- A 32-bit read at a window offset: no side effect (R42); the host gets the value (R128). -/
def serveRead (off : Nat) (s : State) : Host.Outcome State Fault Refusal :=
  .next (reply (.value (readWindow off s.regs)) s)

/-- A 32-bit write at a window offset: only a write to `CMD` acts (R42). -/
def serveWrite (off : Nat) (v : Word) (s : State) : Host.Outcome State Fault Refusal :=
  if regAt off = some .cmd then runCommand v s
  else .next { s with regs := writeWindow off v s.regs }

/-- An access at a window offset: served where it is 32 bits wide and aligned (R38), else a bad access (R39). -/
def serveAt (off : Nat) (a : Access) (s : State) : Host.Outcome State Fault Refusal :=
  if a.bytes = 4 ∧ off % 4 = 0 then
    match a with
    | .read _ _ => serveRead off s
    | .write _ _ v => serveWrite off v s
  else badAccess s

/-- A bus access (R36, R117): stuck while reset is asserted; outside the window it is not TFX's. Its first byte says which
(log 18). -/
def serveAccess (a : Access) (s : State) : Host.Outcome State Fault Refusal :=
  if s.inReset then .fault .stuckInReset
  else
    match windowOffset s.platform a.addr with
    | some off => serveAt off a s
    | none => .fault .outsideWindow

/-- One event, taken whole before the next (R47, R118). -/
def serveEvent (e : Event) (s : State) : Host.Outcome State Fault Refusal :=
  match e with
  | .access a => serveAccess a s
  | .resetLine asserted => .next (resetLine asserted s)
  | .powerCycle => .next (resetRegs s)

/-- The next event arrives (R47); with none, TFX waits (R119). -/
def nextEvent (s : State) : Host.Outcome State Fault Refusal :=
  match s.pending with
  | [] => .next s
  | e :: rest => serveEvent e { s with pending := rest }

/-- The event that makes the next step run the command word of `nbits` bits with value `w`: a 32-bit write of it to `CMD` (R20). -/
def commandEvent (p : Platform) (nbits w : Nat) : Event :=
  .access (wrAccess p .cmd (BitVec.ofNat 32 (w % 2 ^ nbits)))

/-- A host program arrives after what is pending (R65). -/
def loadProgram (prog : List Stmt) (s : State) : State :=
  { s with pending := s.pending ++ (programAccesses s.platform prog).map .access }

end Sys2Proof.Machine
end

