-- ==== Sys2Proof/Machine/Step.lean ====
section
/-!
DEFINITION. One step of the machine: one host event (R47, R127: "a command is one atomic step").
-/

namespace Sys2Proof.Machine

/-- One step: the next host event, whole. -/
def step (s : State) : Host.Outcome State Fault Refusal := nextEvent s

/-- `s` with the write of a command word to `CMD` as the next event (TFX fetches nothing, R31, R51; log 1). The reset input is
released, since no access is served while it is asserted (R117). -/
def State.withFetchWord (s : State) (nbits w : Nat) : State :=
  { s with inReset := false, pending := commandEvent s.platform nbits w :: s.pending }

end Sys2Proof.Machine
end

