-- ==== Sys2Proof/Safety.lean ====
section
/-!
DEFINITION. What counts as a good state and a good run: the invariant of the registers, and the two checks a host makes at the
end of a call (R64 `CHECK`, R109, R128).
-/

namespace Sys2Proof.Safety

open Sys2Proof.Machine

/-- R21: `ORDER` is a power of two in [1, 65536]. -/
def OrderOk (r : Regs) : Prop := ∃ k : Nat, k ≤ 16 ∧ r.order.toNat = 2 ^ k

/-- R101, I14: the codes 6 to 15 are never produced. -/
abbrev CodesOk (r : Regs) : Prop := r.errLast.toNat ≤ 5 ∧ r.errFirst.toNat ≤ 5

/-- R17: `ERR_FIRST` is 0 only where no command has failed since `CLEAR` or reset, so a failing last command shows in it. -/
abbrev FirstErrorKept (r : Regs) : Prop := r.errLast ≠ 0 → r.errFirst ≠ 0

/-- The invariant of the machine: `ORDER` legal, the error codes legal, the first error kept. -/
structure Inv (s : State) : Prop where
  order : OrderOk s.regs
  codes : CodesOk s.regs
  firstError : FirstErrorKept s.regs

/-- R128: "A run whose final `STATUS.ERR_FIRST ≠ 0` is a failed run in the source's sense." -/
def failedRun (s : State) : Bool := s.regs.errFirst != 0

/-- What `CHECK` expects of the word it reads: `STATUS[7:4] = 0` (R64). -/
def checkPasses (status : Word) : Bool := status.extractLsb' 4 4 == 0

end Sys2Proof.Safety
end

