-- ==== Sys2Proof/Certificates/Slice0/Obligations.lean ====
section
/-!
DEFINITION. The statements for the provers, from the numbered rules of spec/. The helpers they share come first, in
`Sys2Proof.Claims`; each states a rule in words of its own where it can, rather than through the model's function.
-/

namespace Sys2Proof.Claims

open Sys2Proof.Machine

/-- A command that ends in this state changed registers alone: the state is `s` with the registers `r`. -/
def withRegs (s : State) (r : Regs) : State := { s with regs := r }

/-- R102 written out: the state a command that fails with `code` leaves. -/
def failedWith (code : BitVec 4) (s : State) : State :=
  withRegs s { s.regs with errLast := code, errFirst := if s.regs.errFirst = 0 then code else s.regs.errFirst }

/-- The powers of two in [1, 65536] (R73). -/
def LegalOrder (v : Nat) : Prop := ∃ k, k ≤ 16 ∧ v = 2 ^ k

/-- `n` is the smallest power of two that is at least `m` and at least 1 (R68). -/
def SmallestPowerAtLeast (n m : Nat) : Prop :=
  ∃ k, n = 2 ^ k ∧ m ≤ n ∧ ∀ j, m ≤ 2 ^ j → k ≤ j

/-- The coordinate word `{y, x}` (R26). -/
def packedCoord (p : Nat × Nat) : Word := BitVec.ofNat 16 p.2 ++ BitVec.ofNat 16 p.1

/-- The distance between two grid positions along the axes (R75 (c)). -/
def manhattan (p q : Nat × Nat) : Nat := ((p.1 : Int) - q.1).natAbs + ((p.2 : Int) - q.2).natAbs

/-- R11 in units of 2^-1074: the byte is the integer nearest to the exact value of the positive `t`, a half upwards. -/
def NearestByte (t : F64) (b : Byte) : Prop :=
  ∃ m, t = .fin false m ∧ 2 * b.toNat * 2 ^ 1074 ≤ 2 * m + 2 ^ 1074 ∧ 2 * m + 2 ^ 1074 < (2 * b.toNat + 2) * 2 ^ 1074

/-- R11 in units of 2^-1074: the byte is the largest integer not above the positive `t`. -/
def FloorByte (t : F64) (b : Byte) : Prop :=
  ∃ m, t = .fin false m ∧ b.toNat * 2 ^ 1074 ≤ m ∧ m < (b.toNat + 1) * 2 ^ 1074

/-- R84 for a `t` that is no NaN: clamped at 255 and at 0, and by `mode` between them. -/
def ByteOf (mode : Config.RoundMode) (t : F64) (b : Byte) : Prop :=
  (F64.le (F64.ofNat 255) t = true → b = 255) ∧
  (F64.le t (F64.ofNat 0) = true → b = 0) ∧
  (F64.lt (F64.ofNat 0) t = true → F64.lt t (F64.ofNat 255) = true →
    match mode with
    | .nearest => NearestByte t b
    | .truncate => FloorByte t b)

/-- A number of units that some finite binary64 value has: a significand below 2^53 at an exponent of the format (R10). -/
def Representable (m : Nat) : Prop := ∃ c k, c < 2 ^ 53 ∧ k ≤ 2045 ∧ m = c * 2 ^ k

/-- How far the representable `m` lies from the exact `num / den`, times `den`. -/
def error (num den m : Nat) : Nat := ((num : Int) - m * den).natAbs

/-- The registers a command reads: the column "reads" of R58. -/
def reads : Instr → List RegName
  | .nop | .clear => []
  | .setn => [.nreq]
  | .setdim => [.width, .height]
  | .d2xy => [.order, .dist]
  | .xy2d => [.order, .coord]
  | .bounds => [.coord, .width, .height]
  | .qh | .qc | .ql | .qa => [.flo, .fhi]
  | .dqh | .dqc | .dql => [.qbyte]
  | .premul => [.flo, .fhi, .abyte]
  | .unpremul | .nalpha => [.native]

/-- The registers besides `STATUS` a command writes: the column "writes" of R58. -/
def writes : Instr → List RegName
  | .nop | .clear | .bounds => []
  | .setn | .setdim => [.order]
  | .d2xy => [.coord]
  | .xy2d => [.dist]
  | .qh | .qc | .ql | .qa | .premul => [.qbyte]
  | .dqh | .dqc | .dql | .unpremul | .nalpha => [.flo, .fhi]

/-- The commands that set `STATUS.NAN` (R19). -/
def setsNan : Instr → Bool
  | .qh | .qc | .ql | .qa | .premul => true
  | .nop | .clear | .setn | .setdim | .d2xy | .xy2d | .bounds => false
  | .dqh | .dqc | .dql | .unpremul | .nalpha => false

/-- The read-write registers of the window (R40). -/
def readWrite : RegName → Bool
  | .nreq | .width | .height | .dist | .coord | .flo | .fhi | .qbyte | .abyte | .native => true
  | .id | .status | .cmd | .order => false

/-- The bits of a word that a read-write register keeps (R28, R29, R41). -/
def keptBits : RegName → Word → Word
  | .qbyte, v | .abyte, v => v &&& 0xFF
  | _, v => v

/-- `D2XY` of the distance `d`, then `BOUNDS`, in the state `s` (R81): the coordinate and `INB`, where both commands succeed. -/
def visit (s : State) (d : Nat) : Option (Word × Bool) :=
  match exec .d2xy (withRegs s { s.regs with dist := BitVec.ofNat 32 d }) with
  | .next t =>
    match exec .bounds t with
    | .next u => if t.regs.errLast = 0 ∧ u.regs.errLast = 0 then some (u.regs.coord, u.regs.inb) else none
    | _ => none
  | _ => none

/-- Command words executed one after another: the error code of each, and the state after them. -/
def outcomes : List Word → State → List (BitVec 4) × State
  | [], s => ([], s)
  | w :: ws, s =>
    match runCommand w s with
    | .next t => (t.regs.errLast :: (outcomes ws t).1, (outcomes ws t).2)
    | _ => ([], s)

/-- The next event is a 32-bit write of the word `w` to `CMD`, served. -/
def servesCommand (s : State) (w : Word) : Prop :=
  s.inReset = false ∧ ∃ rest, s.pending = .access (.write (s.platform.base + 8) 4 w) :: rest

/-- The next event puts the registers at their reset values: reset released, or power restored (R116, R117). -/
def servesReset (s : State) : Prop :=
  (s.inReset = true ∧ s.pending.head? = some (.resetLine false)) ∨ s.pending.head? = some .powerCycle

end Sys2Proof.Claims

open Sys2Proof Sys2Proof.Machine Sys2Proof.Claims

/-! ### The decoder and the encoder -/

/-- R58 and R57: the decoder accepts exactly the words of the opcode map, each as its command. -/
def Obligations.DecodeIsTheInverseOfEncode : Prop :=
  ∀ (w : Word) (i : Instr), decode w = .ok i ↔ w = encode i

/-- R58: a few words of the opcode map, decoded. -/
def Obligations.SampleWordsDecode : Prop :=
  decode 0x00000001#32 = .ok .clear ∧ decode 0x00000004#32 = .ok .d2xy ∧ decode 0x00000012#32 = .ok .ql ∧
  decode 0x00000019#32 = .ok .dqc ∧ decode 0x00000021#32 = .ok .unpremul

/-- R59, R60: a word with a reserved opcode or a reserved bit set runs no command: it fails with ILLEGAL_COMMAND, code 1. -/
def Obligations.IllegalWordsRaiseIllegalCommand : Prop :=
  ∀ (w : Word) (s : State),
    (w.extractLsb' 8 24 ≠ 0 ∨
      (0x07 ≤ w.toNat % 256 ∧ w.toNat % 256 ≤ 0x0F) ∨ (0x14 ≤ w.toNat % 256 ∧ w.toNat % 256 ≤ 0x17) ∨
      (0x1B ≤ w.toNat % 256 ∧ w.toNat % 256 ≤ 0x1F) ∨ 0x23 ≤ w.toNat % 256) →
    runCommand w s = .next (failedWith 1 s)

/-! ### Control commands -/

/-- R80: `NOP` writes `ERR_LAST <- 0` and nothing else. -/
def Obligations.NopClearsOnlyErrLast : Prop :=
  encode .nop = 0x00000000#32 ∧
  ∀ s : State, exec .nop s = .next (withRegs s { s.regs with errLast := 0 })

/-- R72: `CLEAR` zeroes `ERR_FIRST`, `NAN` and `ERR_LAST`; `INB` and the data registers stay. Its opcode under reserved bits
that are not 0 clears nothing: it fails with ILLEGAL_COMMAND. -/
def Obligations.ClearZeroesErrorsAndNan : Prop :=
  encode .clear = 0x00000001#32 ∧
  (∀ s : State, exec .clear s = .next (withRegs s { s.regs with errLast := 0, errFirst := 0, nan := false })) ∧
  (∀ (rsv : BitVec 24) (s : State), rsv ≠ 0 → runCommand (rsv ++ 0x01#8) s = .next (failedWith 1 s))

/-! ### Curve commands -/

/-- R73: `SETN` installs a power of two in [1, 65536] and rejects every other request. -/
def Obligations.SetnInstallsPowersOfTwo : Prop :=
  encode .setn = 0x00000002#32 ∧
  (∀ s : State, LegalOrder s.regs.nreq.toNat →
    ∃ n, n.toNat = s.regs.nreq.toNat ∧
      exec .setn s = .next (withRegs s { s.regs with order := n, errLast := 0 })) ∧
  (∀ s : State, ¬ LegalOrder s.regs.nreq.toNat → exec .setn s = .next (failedWith 2 s))

/-- R74: `SETDIM` installs the smallest power of two that covers both axes, and rejects an axis above 65535. -/
def Obligations.SetdimDerivesSmallestOrder : Prop :=
  encode .setdim = 0x00000003#32 ∧
  (∀ s : State, s.regs.width.toNat ≤ 65535 → s.regs.height.toNat ≤ 65535 →
    ∃ n, SmallestPowerAtLeast n.toNat (max s.regs.width.toNat s.regs.height.toNat) ∧
      exec .setdim s = .next (withRegs s { s.regs with order := n, errLast := 0 })) ∧
  (∀ s : State, 65535 < s.regs.width.toNat ∨ 65535 < s.regs.height.toNat →
    exec .setdim s = .next (failedWith 3 s))

/-- R76: `D2XY` puts the coordinate of `DIST` into `COORD`; a distance of `n²` or more fails and leaves `COORD`. -/
def Obligations.D2xyMapsDistanceToCoordinate : Prop :=
  encode .d2xy = 0x00000004#32 ∧
  (∀ s : State, s.regs.dist.toNat < s.regs.order.toNat * s.regs.order.toNat →
    exec .d2xy s = .next (withRegs s
      { s.regs with coord := packedCoord (hilbertD2xy s.regs.order.toNat s.regs.dist.toNat), errLast := 0 })) ∧
  (∀ s : State, s.regs.order.toNat * s.regs.order.toNat ≤ s.regs.dist.toNat →
    exec .d2xy s = .next (failedWith 4 s))

/-- R77: `XY2D` puts the distance of `COORD` into `DIST`, all of it, for every legal order; a coordinate outside the grid fails
and leaves `DIST`. -/
def Obligations.Xy2dMapsCoordinateToDistance : Prop :=
  encode .xy2d = 0x00000005#32 ∧
  (∀ s : State, LegalOrder s.regs.order.toNat →
    (s.regs.coord.extractLsb' 0 16).toNat < s.regs.order.toNat →
    (s.regs.coord.extractLsb' 16 16).toNat < s.regs.order.toNat →
    ∃ d : Word,
      d.toNat = hilbertXy2d s.regs.order.toNat (s.regs.coord.extractLsb' 0 16).toNat (s.regs.coord.extractLsb' 16 16).toNat ∧
      exec .xy2d s = .next (withRegs s { s.regs with dist := d, errLast := 0 })) ∧
  (∀ s : State, s.regs.order.toNat ≤ (s.regs.coord.extractLsb' 0 16).toNat ∨
      s.regs.order.toNat ≤ (s.regs.coord.extractLsb' 16 16).toNat →
    exec .xy2d s = .next (failedWith 5 s))

/-- R79: `BOUNDS` sets `INB` exactly where `x < WIDTH` and `y < HEIGHT`, and never fails. -/
def Obligations.BoundsComparesWithTheImage : Prop :=
  encode .bounds = 0x00000006#32 ∧
  ∀ s : State, ∃ b : Bool,
    (b = true ↔ (s.regs.coord.extractLsb' 0 16).setWidth 32 < s.regs.width ∧
      (s.regs.coord.extractLsb' 16 16).setWidth 32 < s.regs.height) ∧
    exec .bounds s = .next (withRegs s { s.regs with inb := b, errLast := 0 })

/-- R70: one more pass of the curve. The curve of order `2h` is four curves of order `h`, each turned by `rot` and moved to
its quadrant. -/
def Obligations.CurveIsFourTurnedQuarters : Prop :=
  ∀ k d : Nat, k < 16 → d < 2 ^ (k + 1) * 2 ^ (k + 1) →
    let h := 2 ^ k
    let q := d / (h * h)
    let rx := q / 2
    let ry := if q = 0 ∨ q = 3 then 0 else 1
    let p := hilbertD2xy h (d % (h * h))
    let r := rot h p.1 p.2 rx ry
    hilbertD2xy (2 * h) d = (r.1 + h * rx, r.2 + h * ry)

/-- R75: where the curve starts, where it ends, and which way it sets out. -/
def Obligations.CurveEndpointsAndFirstStep : Prop :=
  ∀ k : Nat, k ≤ 16 →
    hilbertD2xy (2 ^ k) 0 = (0, 0) ∧
    (1 ≤ k → hilbertD2xy (2 ^ k) (2 ^ k * 2 ^ k - 1) = (2 ^ k - 1, 0)) ∧
    (k % 2 = 1 → hilbertD2xy (2 ^ k) 1 = (0, 1)) ∧
    (k % 2 = 0 → 1 ≤ k → hilbertD2xy (2 ^ k) 1 = (1, 0))

/-- R75 (a): on the distances of its grid the curve is a bijection onto the grid. -/
def Obligations.CurveIsABijection : Prop :=
  ∀ k : Nat, k ≤ 16 →
    (∀ d, d < 2 ^ k * 2 ^ k → (hilbertD2xy (2 ^ k) d).1 < 2 ^ k ∧ (hilbertD2xy (2 ^ k) d).2 < 2 ^ k) ∧
    (∀ x y, x < 2 ^ k → y < 2 ^ k → ∃! d, d < 2 ^ k * 2 ^ k ∧ hilbertD2xy (2 ^ k) d = (x, y))

/-- R75 (c): consecutive distances are grid neighbours. -/
def Obligations.CurveStepsToANeighbour : Prop :=
  ∀ k d : Nat, k ≤ 16 → d + 1 < 2 ^ k * 2 ^ k →
    manhattan (hilbertD2xy (2 ^ k) d) (hilbertD2xy (2 ^ k) (d + 1)) = 1

/-- R78: `D2XY` then `XY2D` gives the distance back, `XY2D` then `D2XY` the coordinate, and all four succeed. -/
def Obligations.CurveCommandsRoundTrip : Prop :=
  (∀ s : State, LegalOrder s.regs.order.toNat →
    s.regs.dist.toNat < s.regs.order.toNat * s.regs.order.toNat →
    ∃ t u, exec .d2xy s = .next t ∧ exec .xy2d t = .next u ∧
      t.regs.errLast = 0 ∧ u.regs.errLast = 0 ∧ u.regs.dist = s.regs.dist) ∧
  (∀ s : State, LegalOrder s.regs.order.toNat →
    (s.regs.coord.extractLsb' 0 16).toNat < s.regs.order.toNat →
    (s.regs.coord.extractLsb' 16 16).toNat < s.regs.order.toNat →
    ∃ t u, exec .xy2d s = .next t ∧ exec .d2xy t = .next u ∧
      t.regs.errLast = 0 ∧ u.regs.errLast = 0 ∧ u.regs.coord = s.regs.coord)

/-- R81: after `SETDIM`, `D2XY` and `BOUNDS` over every distance find exactly `w · h` positions inside, each coordinate of the
image once. -/
def Obligations.InBoundsCountIsTheImageArea : Prop :=
  ∀ s t : State, exec .setdim s = .next t → t.regs.errLast = 0 →
    let n := t.regs.order.toNat
    let w := s.regs.width.toNat
    let h := s.regs.height.toNat
    (∀ d, d < n * n → (visit t d).isSome) ∧
    ((List.range (n * n)).filter (fun d => (visit t d).any (·.2))).length = w * h ∧
    (∀ x y, x < w → y < h → ∃! d, d < n * n ∧ visit t d = some (packedCoord (x, y), true))

/-! ### Binary64 -/

/-- R10: rounding is to nearest, ties to even. The result has the sign asked for; where it is finite it is representable, no
representable value is nearer to the exact `num / den`, and on a tie its significand is even. That a result is an infinity exactly
from half a last place above the largest finite value on (where it would round to `2^1024` or more) is no clause of R10: it is
PRESUMED from IEEE 754 (log 8). -/
def Obligations.RoundingIsToNearestEven : Prop :=
  ∀ (neg : Bool) (num den : Nat), 0 < den →
    match F64.round neg num den with
    | .fin s m =>
      s = neg ∧ Representable m ∧ num < (2 ^ 54 - 1) * 2 ^ 2044 * den ∧
      ∀ m', Representable m' →
        error num den m ≤ error num den m' ∧
        (error num den m = error num den m' → m ≠ m' → m / 2 ^ (Nat.log2 m - 52) % 2 = 0)
    | .inf s => s = neg ∧ (2 ^ 54 - 1) * 2 ^ 2044 * den ≤ num
    | .nan => False

/-- R10: the pattern of the value a pattern encodes is that pattern, and the NaN patterns are those with all exponent bits set
and a fraction that is not 0. -/
def Obligations.FloatPatternsRoundTrip : Prop :=
  ∀ u : FloatBits,
    ((f64bits u).isNaN = true ↔ u.extractLsb' 52 11 = 0x7FF#11 ∧ u.extractLsb' 0 52 ≠ 0) ∧
    ((f64bits u).isNaN = false → (f64bits u).bits = u)

/-- R99: `clamp1` gives -1 below -1 and 1 above 1, and any other value, a NaN and -0.0 among them, unchanged. -/
def Obligations.ClampToUnitInterval : Prop :=
  ∀ v : F64,
    (F64.lt v (f64bits 0xBFF0000000000000#64) = true → clamp1 v = f64bits 0xBFF0000000000000#64) ∧
    (F64.lt (f64bits 0x3FF0000000000000#64) v = true → clamp1 v = f64bits 0x3FF0000000000000#64) ∧
    (F64.lt v (f64bits 0xBFF0000000000000#64) = false → F64.lt (f64bits 0x3FF0000000000000#64) v = false → clamp1 v = v)

/-! ### Quantizers -/

/-- R85: `QH` puts the byte of `(h / 360) * 255` into `QBYTE`; a NaN gives 0 and sets `NAN`. -/
def Obligations.QhQuantizesHue : Prop :=
  encode .qh = 0x00000010#32 ∧
  (∀ s : State, (f64bits s.regs.f).isNaN = true →
    exec .qh s = .next (withRegs s { s.regs with qbyte := 0, nan := true, errLast := 0 })) ∧
  (∀ s : State, (f64bits s.regs.f).isNaN = false →
    ∃ b, ByteOf .nearest (fMul (fDiv (f64bits s.regs.f) (F64.ofNat 360)) (F64.ofNat 255)) b ∧
      exec .qh s = .next (withRegs s { s.regs with qbyte := b, errLast := 0 }))

/-- R86: `QC` puts the byte of `((c + 1) / 2) * 255` of the clamped chroma into `QBYTE`; a NaN gives 0 and sets `NAN`. -/
def Obligations.QcQuantizesChroma : Prop :=
  encode .qc = 0x00000011#32 ∧
  (∀ s : State, (f64bits s.regs.f).isNaN = true →
    exec .qc s = .next (withRegs s { s.regs with qbyte := 0, nan := true, errLast := 0 })) ∧
  (∀ s : State, (f64bits s.regs.f).isNaN = false →
    ∃ b, ByteOf .nearest
        (fMul (fDiv (fAdd (clamp1 (f64bits s.regs.f)) (F64.ofNat 1)) (F64.ofNat 2)) (F64.ofNat 255)) b ∧
      exec .qc s = .next (withRegs s { s.regs with qbyte := b, errLast := 0 }))

/-- R87: `QL` is the formula of `QC` on the lightness. -/
def Obligations.QlQuantizesLightness : Prop :=
  encode .ql = 0x00000012#32 ∧
  (∀ s : State, (f64bits s.regs.f).isNaN = true →
    exec .ql s = .next (withRegs s { s.regs with qbyte := 0, nan := true, errLast := 0 })) ∧
  (∀ s : State, (f64bits s.regs.f).isNaN = false →
    ∃ b, ByteOf .nearest
        (fMul (fDiv (fAdd (clamp1 (f64bits s.regs.f)) (F64.ofNat 1)) (F64.ofNat 2)) (F64.ofNat 255)) b ∧
      exec .ql s = .next (withRegs s { s.regs with qbyte := b, errLast := 0 }))

/-- R88: `QA` puts the byte of `a * 255` into `QBYTE`; a NaN gives 0 and sets `NAN`. -/
def Obligations.QaQuantizesAlpha : Prop :=
  encode .qa = 0x00000013#32 ∧
  (∀ s : State, (f64bits s.regs.f).isNaN = true →
    exec .qa s = .next (withRegs s { s.regs with qbyte := 0, nan := true, errLast := 0 })) ∧
  (∀ s : State, (f64bits s.regs.f).isNaN = false →
    ∃ b, ByteOf .nearest (fMul (f64bits s.regs.f) (F64.ofNat 255)) b ∧
      exec .qa s = .next (withRegs s { s.regs with qbyte := b, errLast := 0 }))

/-- R86, R87: what the quantizers of chroma and lightness do at and beyond the ends of [-1, 1]. -/
def Obligations.AxisQuantizersSaturate : Prop :=
  ∀ (i : Instr) (s : State), i = .qc ∨ i = .ql →
    (F64.le (f64bits s.regs.f) (f64bits 0xBFF0000000000000#64) = true →
      exec i s = .next (withRegs s { s.regs with qbyte := 0, errLast := 0 })) ∧
    (F64.le (f64bits 0x3FF0000000000000#64) (f64bits s.regs.f) = true →
      exec i s = .next (withRegs s { s.regs with qbyte := 255, errLast := 0 }))

/-! ### Dequantizers -/

/-- R89: `DQH` puts `(b / 255) * 359` into `F`; the result lies in [0, 359]. -/
def Obligations.DqhDequantizesHue : Prop :=
  encode .dqh = 0x00000018#32 ∧
  ∀ s : State, ∃ v,
    v = fMul (fDiv (F64.ofNat s.regs.qbyte.toNat) (F64.ofNat 255)) (F64.ofNat 359) ∧
    (∃ m, v = .fin false m ∧ m ≤ 359 * 2 ^ 1074) ∧
    f64bits v.bits = v ∧
    exec .dqh s = .next (withRegs s { s.regs with f := v.bits, errLast := 0 })

/-- R90: `DQC` puts `(b / 255) * 2 - 1` into `F`; the result lies in [-1, 1]. -/
def Obligations.DqcDequantizesChroma : Prop :=
  encode .dqc = 0x00000019#32 ∧
  ∀ s : State, ∃ v,
    v = fSub (fMul (fDiv (F64.ofNat s.regs.qbyte.toNat) (F64.ofNat 255)) (F64.ofNat 2)) (F64.ofNat 1) ∧
    (∃ n m, v = .fin n m ∧ m ≤ 2 ^ 1074 ∧ m ≠ 0) ∧
    f64bits v.bits = v ∧
    exec .dqc s = .next (withRegs s { s.regs with f := v.bits, errLast := 0 })

/-- R91: `DQL` is the formula of `DQC` on the lightness byte. -/
def Obligations.DqlDequantizesLightness : Prop :=
  encode .dql = 0x0000001A#32 ∧
  ∀ s : State, ∃ v,
    v = fSub (fMul (fDiv (F64.ofNat s.regs.qbyte.toNat) (F64.ofNat 255)) (F64.ofNat 2)) (F64.ofNat 1) ∧
    (∃ n m, v = .fin n m ∧ m ≤ 2 ^ 1074 ∧ m ≠ 0) ∧
    f64bits v.bits = v ∧
    exec .dql s = .next (withRegs s { s.regs with f := v.bits, errLast := 0 })

/-! ### Alpha handling -/

/-- R92: `PREMUL` puts the byte of `component * alpha_byte` into `QBYTE`, by the platform's `PREMUL_ROUND`; the product is a NaN
exactly for a NaN component and for an infinite one with `ABYTE = 0`, and it then gives 0 and sets `NAN`. -/
def Obligations.PremulMultipliesAndRounds : Prop :=
  encode .premul = 0x00000020#32 ∧
  (∀ s : State,
    (f64bits s.regs.f).isNaN = true ∨ ((∃ n, f64bits s.regs.f = .inf n) ∧ s.regs.abyte = 0) →
    exec .premul s = .next (withRegs s { s.regs with qbyte := 0, nan := true, errLast := 0 })) ∧
  (∀ s : State,
    ¬ ((f64bits s.regs.f).isNaN = true ∨ ((∃ n, f64bits s.regs.f = .inf n) ∧ s.regs.abyte = 0)) →
    ∃ b, ByteOf s.platform.premulRound (fMul (f64bits s.regs.f) (F64.ofNat s.regs.abyte.toNat)) b ∧
      exec .premul s = .next (withRegs s { s.regs with qbyte := b, errLast := 0 }))

/-- R93: `UNPREMUL` puts `min(NC / NA, 1.0)` into `F`, and `+0.0` where `NA` is 0. -/
def Obligations.UnpremulDividesByAlpha : Prop :=
  encode .unpremul = 0x00000021#32 ∧
  (∀ s : State, s.regs.native.extractLsb' 16 16 = 0 →
    exec .unpremul s = .next (withRegs s { s.regs with f := 0, errLast := 0 })) ∧
  (∀ s : State, s.regs.native.extractLsb' 16 16 ≠ 0 →
    s.regs.native.extractLsb' 16 16 ≤ s.regs.native.extractLsb' 0 16 →
    exec .unpremul s = .next (withRegs s { s.regs with f := 0x3FF0000000000000#64, errLast := 0 })) ∧
  (∀ s : State, s.regs.native.extractLsb' 0 16 < s.regs.native.extractLsb' 16 16 →
    ∃ m, m ≤ 2 ^ 1074 ∧
      fDiv (F64.ofNat (s.regs.native.extractLsb' 0 16).toNat) (F64.ofNat (s.regs.native.extractLsb' 16 16).toNat) =
        .fin false m ∧
      f64bits (F64.fin false m).bits = .fin false m ∧
      exec .unpremul s = .next (withRegs s { s.regs with f := (F64.fin false m).bits, errLast := 0 }))

/-- R94: `NALPHA` puts `NA / 65535` into `F`; the result lies in [0, 1]. -/
def Obligations.NalphaNormalizesAlpha : Prop :=
  encode .nalpha = 0x00000022#32 ∧
  ∀ s : State, ∃ m, m ≤ 2 ^ 1074 ∧
    fDiv (F64.ofNat (s.regs.native.extractLsb' 16 16).toNat) (F64.ofNat 65535) = .fin false m ∧
    f64bits (F64.fin false m).bits = .fin false m ∧
    exec .nalpha s = .next (withRegs s { s.regs with f := (F64.fin false m).bits, errLast := 0 })

/-- R95: `DQH` then `QH` gives the byte back up to 180, and one less from 181 on; and the rule's example for 181. -/
def Obligations.HueRoundTripDriftsAbove180 : Prop :=
  ∀ s : State, ∃ t u, exec .dqh s = .next t ∧ exec .qh t = .next u ∧
    (s.regs.qbyte = 181 → t.regs.f = 0x406FDA3A3A3A3A3B#64) ∧
    u.regs.qbyte.toNat = if s.regs.qbyte.toNat ≤ 180 then s.regs.qbyte.toNat else s.regs.qbyte.toNat - 1

/-- R96: `DQC` then `QC`, and `DQL` then `QL`, give the byte back. -/
def Obligations.AxisRoundTripsAreIdentity : Prop :=
  ∀ s : State,
    (∃ t u, exec .dqc s = .next t ∧ exec .qc t = .next u ∧ u.regs.qbyte = s.regs.qbyte) ∧
    (∃ t u, exec .dql s = .next t ∧ exec .ql t = .next u ∧ u.regs.qbyte = s.regs.qbyte)

/-- R97: a native alpha of `257·k` gives the byte `k` by `NALPHA` then `QA`. -/
def Obligations.NativeAlphaOfAByteGivesTheByte : Prop :=
  ∀ (s : State) (k : Nat), k ≤ 255 → (s.regs.native.extractLsb' 16 16).toNat = 257 * k →
    ∃ t u, exec .nalpha s = .next t ∧ exec .qa t = .next u ∧ u.regs.qbyte.toNat = k

/-- R100: with native alpha 0, `UNPREMUL` gives `+0.0` and `NALPHA` then `QA` gives 0; with `ABYTE = 0`, `PREMUL` of a finite
component gives 0. -/
def Obligations.AlphaZeroIsStable : Prop :=
  (∀ s : State, s.regs.native.extractLsb' 16 16 = 0 →
    (∃ t, exec .unpremul s = .next t ∧ t.regs.f = 0) ∧
    (∃ t u, exec .nalpha s = .next t ∧ exec .qa t = .next u ∧ u.regs.qbyte = 0)) ∧
  (∀ (s : State) (n : Bool) (m : Nat), s.regs.abyte = 0 → f64bits s.regs.f = .fin n m →
    ∃ t, exec .premul s = .next t ∧ t.regs.qbyte = 0 ∧ t.regs.nan = s.regs.nan)

/-! ### What commands leave alone, over all commands -/

/-- R120: every command, on every register value, completes. That it changes registers alone rests on R57, R66 and R83. The other
fields of the state, which it leaves as they are, are the model's own: the pending events (log 1), the replies (log 2), the
platform (log 3) and the level of the reset input (log 6). -/
def Obligations.EveryCommandCompletes : Prop :=
  ∀ (i : Instr) (s : State), ∃ r, exec i s = .next (withRegs s r)

/-- R58, R18, R19, R21, R22: a command writes only the registers of its row. -/
def Obligations.CommandsWriteOnlyTheirRegisters : Prop :=
  ∀ (i : Instr) (s t : State), exec i s = .next t →
    (∀ r, r ∉ writes i → r ≠ .status → readReg t.regs r = readReg s.regs r) ∧
    (i ≠ .bounds → t.regs.inb = s.regs.inb) ∧
    (setsNan i = false → i ≠ .clear → t.regs.nan = s.regs.nan) ∧
    (setsNan i = true → s.regs.nan = true → t.regs.nan = true)

/-- R34: what a command answers is a function of the registers its row reads (and, for `PREMUL`, of the platform): whether it
fails, and where it succeeds, what it writes. -/
def Obligations.CommandsDependOnlyOnTheirReads : Prop :=
  ∀ (i : Instr) (s s' t t' : State), s.platform = s'.platform →
    (∀ r, r ∈ reads i → readReg s.regs r = readReg s'.regs r) →
    exec i s = .next t → exec i s' = .next t' →
    t.regs.errLast = t'.regs.errLast ∧
    (t.regs.errLast = 0 → ∀ r, r ∈ writes i → readReg t.regs r = readReg t'.regs r) ∧
    (i = .bounds → t.regs.inb = t'.regs.inb) ∧
    (s.regs.nan = s'.regs.nan → t.regs.nan = t'.regs.nan)

/-- R102, R104, R16, R17: a command word that fails leaves its code in `ERR_LAST`, keeps the first error, and changes nothing
else; one that succeeds keeps `ERR_FIRST`, unless it is `CLEAR`. -/
def Obligations.ErrorsArePrecise : Prop :=
  ∀ (w : Word) (s t : State), runCommand w s = .next t →
    (t.regs.errLast ≠ 0 → t = failedWith t.regs.errLast s) ∧
    (t.regs.errLast = 0 → w ≠ encode .clear → t.regs.errFirst = s.regs.errFirst)

/-- R101, R106: which command word raises which code. -/
def Obligations.ErrorCodesNameTheirCause : Prop :=
  ∀ (w : Word) (s t : State), runCommand w s = .next t →
    (t.regs.errLast = 0 ∨ t.regs.errLast = 1 ∨ t.regs.errLast = 2 ∨ t.regs.errLast = 3 ∨ t.regs.errLast = 4 ∨
      t.regs.errLast = 5) ∧
    (t.regs.errLast = 1 ↔ ∀ i, w ≠ encode i) ∧
    (t.regs.errLast = 2 ↔ w = encode .setn ∧ ¬ LegalOrder s.regs.nreq.toNat) ∧
    (t.regs.errLast = 3 ↔ w = encode .setdim ∧ (65535 < s.regs.width.toNat ∨ 65535 < s.regs.height.toNat)) ∧
    (t.regs.errLast = 4 ↔ w = encode .d2xy ∧ s.regs.order.toNat * s.regs.order.toNat ≤ s.regs.dist.toNat) ∧
    (t.regs.errLast = 5 ↔ w = encode .xy2d ∧
      (s.regs.order.toNat ≤ (s.regs.coord.extractLsb' 0 16).toNat ∨
        s.regs.order.toNat ≤ (s.regs.coord.extractLsb' 16 16).toNat))

/-- R17: over any sequence of command words without a `CLEAR`, `ERR_FIRST = 0` at the end means that no command failed. -/
def Obligations.ErrFirstZeroMeansNoFailure : Prop :=
  ∀ (ws : List Word) (s : State), (∀ w, w ∈ ws → w ≠ encode .clear) →
    (outcomes ws s).2.regs.errFirst = 0 →
    (outcomes ws s).1.length = ws.length ∧ ∀ e, e ∈ (outcomes ws s).1 → e = 0

/-! ### The window -/

/-- R38, R40, R41: a 32-bit write to a read-write register, then a read of it, gives back the bits the register keeps. The value
read is a reply (log 2). -/
def Obligations.ReadAfterWriteOfARegister : Prop :=
  ∀ (r : RegName) (v : Word) (s : State), s.inReset = false → readWrite r = true →
    ∃ t u, serveAccess (.write (s.platform.base + r.offset) 4 v) s = .next t ∧
      serveAccess (.read (s.platform.base + r.offset) 4) t = .next u ∧
      u.replies = s.replies ++ [.value (keptBits r v)]

/-- R38, R40: a 32-bit write to a read-write register changes no byte of the window outside its four. -/
def Obligations.WriteLeavesOtherBytesAlone : Prop :=
  ∀ (r : RegName) (v : Word) (s : State) (a : Nat), s.inReset = false → readWrite r = true →
    a < r.offset ∨ r.offset + 4 ≤ a →
    ∃ t, serveAccess (.write (s.platform.base + r.offset) 4 v) s = .next t ∧
      windowByte a t.regs = windowByte a s.regs

/-- R40, R41: a write to a read-only register or a reserved offset changes nothing; the reserved offsets and `CMD` read 0, as a
reply (log 2). -/
def Obligations.ReadOnlyAndReservedWordsIgnoreWrites : Prop :=
  ∀ (off : Nat) (v : Word) (s : State), s.inReset = false →
    (off = 0x00 ∨ off = 0x04 ∨ off = 0x0C ∨ off = 0x38 ∨ off = 0x3C →
      serveAccess (.write (s.platform.base + off) 4 v) s = .next s) ∧
    (off = 0x08 ∨ off = 0x38 ∨ off = 0x3C →
      serveAccess (.read (s.platform.base + off) 4) s = .next { s with replies := s.replies ++ [.value 0] })

/-- R14: `ID` reads `0x31584654`, whose bytes from the lowest address spell `TFX1`. The read's value is the reply of log 2. -/
def Obligations.IdSpellsTfx1 : Prop :=
  ∀ s : State, s.inReset = false →
    serveAccess (.read (s.platform.base + 0x00) 4) s =
      .next { s with replies := s.replies ++ [.value 0x31584654#32] } ∧
    [windowByte 0 s.regs, windowByte 1 s.regs, windowByte 2 s.regs, windowByte 3 s.regs] = [0x54#8, 0x46#8, 0x58#8, 0x31#8]

/-- R15: the layout of `STATUS`. -/
def Obligations.StatusLayout : Prop :=
  ∀ r : Regs,
    (readReg r .status).extractLsb' 0 4 = r.errLast ∧ (readReg r .status).extractLsb' 4 4 = r.errFirst ∧
    (readReg r .status).getLsbD 8 = r.inb ∧ (readReg r .status).getLsbD 9 = r.nan ∧
    (readReg r .status).extractLsb' 10 22 = 0

/-- R37: the window is little-endian, and `F` is little-endian across its two words. -/
def Obligations.WindowIsLittleEndian : Prop :=
  ∀ (r : Regs) (off : Nat), off % 4 = 0 →
    readWindow off r =
      windowByte (off + 3) r ++ windowByte (off + 2) r ++ windowByte (off + 1) r ++ windowByte off r ∧
    (∀ i, i < 8 → windowByte (0x24 + i) r = r.f.extractLsb' (8 * i) 8)

/-- R42: a served 32-bit read changes no register; a second read of the same address gives the same word. The values read are the
model's own list of replies (log 2). -/
def Obligations.ReadsHaveNoSideEffect : Prop :=
  ∀ (off : Nat) (s : State), s.inReset = false → off < 64 → off % 4 = 0 →
    ∃ v t u, serveAccess (.read (s.platform.base + off) 4) s = .next t ∧
      serveAccess (.read (s.platform.base + off) 4) t = .next u ∧
      t = { s with replies := s.replies ++ [.value v] } ∧
      u = { s with replies := s.replies ++ [.value v, .value v] }

/-- R27, R43: a write to one half of `F` leaves the other half, so a command between the two writes reads the mixed value. -/
def Obligations.HalvesOfFAreSeparate : Prop :=
  ∀ (v : Word) (s : State), s.inReset = false →
    serveAccess (.write (s.platform.base + 0x24) 4 v) s =
      .next (withRegs s { s.regs with f := s.regs.f.extractLsb' 32 32 ++ v }) ∧
    serveAccess (.write (s.platform.base + 0x28) 4 v) s =
      .next (withRegs s { s.regs with f := v ++ s.regs.f.extractLsb' 0 32 })

/-- R39, with the model's choice of log 4: an access of the window that is not 32 bits wide or not aligned has no effect on TFX: a
bus error for the host where the platform reports one, and stuck otherwise. An access is of the window where its first byte is (the
model's choice, log 18). -/
def Obligations.BadAccessesHaveNoEffect : Prop :=
  ∀ (a : Access) (s : State), s.inReset = false →
    s.platform.base ≤ a.addr → a.addr < s.platform.base + 64 → a.bytes ≠ 4 ∨ a.addr % 4 ≠ 0 →
    (s.platform.busErrorOnBadAccess = true →
      serveAccess a s = .next { s with replies := s.replies ++ [.busError] }) ∧
    (s.platform.busErrorOnBadAccess = false → serveAccess a s = .fault .stuckBadAccess)

/-- R36, R117, with the model's choices of logs 5, 6 and 18: no access is served while reset is asserted, and one whose first byte
lies outside the window is not TFX's (log 18 settles the one that begins below `BASE` and reaches into the window). -/
def Obligations.UnservedAccessesStop : Prop :=
  ∀ (a : Access) (s : State),
    (s.inReset = true → serveAccess a s = .fault .stuckInReset) ∧
    (s.inReset = false → a.addr < s.platform.base ∨ s.platform.base + 64 ≤ a.addr →
      serveAccess a s = .fault .outsideWindow)

/-- R64: what the pseudo-statements `WRF`, `WRXY` and `WRNAT` leave in the registers, and that `CHECK` reads `STATUS`, as a reply
(log 2). -/
def Obligations.PseudoStatementsWriteTheirRegisters : Prop :=
  ∀ s : State, s.inReset = false →
    (∀ b : FloatBits, ∃ a₁ a₂ t, stmtAccesses s.platform (.wrf b) = [a₁, a₂] ∧
      serveAccess a₁ s = .next t ∧ serveAccess a₂ t = .next (withRegs s { s.regs with f := b })) ∧
    (∀ x y : BitVec 16, ∃ a, stmtAccesses s.platform (.wrxy x y) = [a] ∧
      serveAccess a s = .next (withRegs s { s.regs with coord := y.setWidth 32 <<< 16 ||| x.setWidth 32 })) ∧
    (∀ nc na : BitVec 16, ∃ a, stmtAccesses s.platform (.wrnat nc na) = [a] ∧
      serveAccess a s = .next (withRegs s { s.regs with native := na.setWidth 32 <<< 16 ||| nc.setWidth 32 })) ∧
    (∃ a, stmtAccesses s.platform .check = [a] ∧
      serveAccess a s = .next { s with replies := s.replies ++ [.value (statusWord s.regs)] })

/-! ### The step, reset, and the invariant -/

/-- R20, R57, R32: when the next event is a 32-bit write to `CMD` of a word that decodes to the well-formed command `i`, the step
is `exec i` on the state with that event taken. That a step is one host event is the model's choice (log 1). -/
def Obligations.StepRunsTheDecodedCommand : Prop :=
  ∀ (s : State) (w : Word) (i : Instr) (rest : List Event), s.inReset = false →
    s.pending = .access (.write (s.platform.base + 8) 4 w) :: rest →
    decode w = .ok i → i.wellFormed = true →
    step s = exec i { s with pending := rest }

/-- R47, R6: a step that goes on takes exactly the next event, if there is one, and no step changes the platform or an earlier
reply. The two lists are the model's own (logs 1 and 2). -/
def Obligations.StepTakesOneEventInOrder : Prop :=
  ∀ s t : State, step s = .next t →
    t.pending = s.pending.tail ∧ t.platform = s.platform ∧ (∃ new, t.replies = s.replies ++ new ∧ new.length ≤ 1)

/-- R119: with no event pending TFX waits: the model's step then leaves the state as it is (log 1). -/
def Obligations.TfxWaitsForTheHost : Prop :=
  ∀ s : State, s.pending = [] → step s = .next s

/-- R35: what every register holds after reset, on every platform. -/
def Obligations.ResetValues : Prop :=
  ∀ p, (State.resetOn p).regs =
      { order := 1, nreq := 1, width := 0, height := 0, dist := 0, coord := 0, f := 0, qbyte := 0, abyte := 0, native := 0,
        errLast := 0, errFirst := 0, inb := false, nan := false } ∧
    readReg (State.resetOn p).regs .status = 0 ∧ readReg (State.resetOn p).regs .id = 0x31584654#32

/-- R117, R118, R116: reset asserted and then released, or a power cycle, puts every register at its reset value, whatever the state
before, so also whether or not a command had made its writes. The two events are the model's (logs 6 and 7). -/
def Obligations.ResetReachesTheResetState : Prop :=
  ∀ (s : State) (rest : List Event),
    (s.pending = .resetLine true :: .resetLine false :: rest →
      ∃ t u, step s = .next t ∧ t.inReset = true ∧ step t = .next u ∧
        u = { s with regs := (State.resetOn s.platform).regs, inReset := false, pending := rest }) ∧
    (s.pending = .powerCycle :: rest →
      step s = .next { s with regs := (State.resetOn s.platform).regs, pending := rest })

/-- R21, R101, R17: the machine right after reset meets the invariant, on every platform. -/
def Obligations.InvariantHoldsAtReset : Prop := ∀ p, Safety.Inv (State.resetOn p)

/-- R21, R101, R17: every step keeps the invariant, from every state that meets it. -/
def Obligations.InvariantIsKeptByEveryStep : Prop :=
  ∀ s t : State, Safety.Inv s → step s = .next t → Safety.Inv t

/-- R125, R21: `ORDER` changes only by `SETN`, `SETDIM` and reset, over the events of logs 1, 6 and 7. -/
def Obligations.OrderChangesOnlyBySetnSetdimReset : Prop :=
  ∀ s t : State, step s = .next t → t.regs.order ≠ s.regs.order →
    servesCommand s 0x00000002#32 ∨ servesCommand s 0x00000003#32 ∨ servesReset s

/-- R108: `CLEAR` and reset are the only ways to set `ERR_FIRST` and `NAN` back to 0, over the events of logs 1, 6 and 7. -/
def Obligations.OnlyClearAndResetClearStickyFields : Prop :=
  ∀ s t : State, step s = .next t →
    (s.regs.errFirst ≠ 0 ∧ t.regs.errFirst = 0) ∨ (s.regs.nan = true ∧ t.regs.nan = false) →
    servesCommand s 0x00000001#32 ∨ servesReset s
end

