-- ==== Sys2Proof/Laws/Bits.lean ====
section
/-!
SUPPORT. A word made of two fields, and its fields again: `COORD` and `NATIVE` (two halves of 16 bits, R26, R30), `F` (two
halves of 32 bits, R27), and a command word (R54), at the widths the model writes them.
-/

namespace Sys2Proof

theorem extract_low_append (n m : Nat) (a : BitVec n) (b : BitVec m) : (a ++ b).extractLsb' 0 m = b := by
  apply BitVec.eq_of_getLsbD_eq
  intro i hi
  simp [BitVec.getLsbD_append, hi]

theorem extract_high_append (n m : Nat) (a : BitVec n) (b : BitVec m) : (a ++ b).extractLsb' m n = a := by
  apply BitVec.eq_of_getLsbD_eq
  intro i hi
  simp [BitVec.getLsbD_append, hi]

theorem append_extract (n m : Nat) (w : BitVec (n + m)) : w.extractLsb' m n ++ w.extractLsb' 0 m = w := by
  apply BitVec.eq_of_getLsbD_eq
  intro i hi
  simp only [BitVec.getLsbD_append, BitVec.getLsbD_extractLsb']
  by_cases h : i < m
  · simp [h]
  · have h1 : m + (i - m) = i := by omega
    have h2 : i - m < n := by omega
    simp [h, h1, h2]

@[simp] theorem word_low_half (a b : BitVec 16) : (a ++ b : BitVec 32).extractLsb' 0 16 = b := extract_low_append 16 16 a b
@[simp] theorem word_high_half (a b : BitVec 16) : (a ++ b : BitVec 32).extractLsb' 16 16 = a := extract_high_append 16 16 a b
@[simp] theorem word_of_halves (w : BitVec 32) : (w.extractLsb' 16 16 ++ w.extractLsb' 0 16 : BitVec 32) = w :=
  append_extract 16 16 w

@[simp] theorem float_low_half (a b : Word) : (a ++ b : FloatBits).extractLsb' 0 32 = b := extract_low_append 32 32 a b
@[simp] theorem float_high_half (a b : Word) : (a ++ b : FloatBits).extractLsb' 32 32 = a := extract_high_append 32 32 a b
@[simp] theorem float_of_halves (u : FloatBits) : (u.extractLsb' 32 32 ++ u.extractLsb' 0 32 : FloatBits) = u :=
  append_extract 32 32 u

@[simp] theorem command_low_byte (a : BitVec 24) (b : Byte) : (a ++ b : Word).extractLsb' 0 8 = b := extract_low_append 24 8 a b
@[simp] theorem command_high_bits (a : BitVec 24) (b : Byte) : (a ++ b : Word).extractLsb' 8 24 = a := extract_high_append 24 8 a b
@[simp] theorem command_of_fields (w : Word) : (w.extractLsb' 8 24 ++ w.extractLsb' 0 8 : Word) = w := append_extract 24 8 w

end Sys2Proof
end

