-- ==== Sys2Proof/Laws/Float.lean ====
section
/-!
SUPPORT. The lemmas of binary64's building blocks: the powers of two, and division to the nearest integer.
-/

namespace Sys2Proof.Machine

/-- `pow2` is the power of two. -/
theorem pow2_eq (k : Nat) : pow2 k = 2 ^ k := by
  unfold pow2
  rw [← pow_mul, ← pow_add, Nat.div_add_mod]

/-- A power of two is not 0. -/
theorem pow2_pos (k : Nat) : 0 < pow2 k := by
  rw [pow2_eq]
  exact Nat.two_pow_pos k

theorem unitsPerOne_eq : unitsPerOne = 2 ^ 1074 := pow2_eq 1074

theorem unitsLimit_eq : unitsLimit = 2 ^ 2098 := pow2_eq 2098

/-- All that division to the nearest integer can answer: within a half, and even on a tie. -/
theorem divNearestEven_spec (num den : Nat) (hden : 0 < den) :
    2 * (divNearestEven num den * den) ≤ 2 * num + den ∧ 2 * num ≤ 2 * (divNearestEven num den * den) + den ∧
    (2 * (divNearestEven num den * den) = 2 * num + den ∨ 2 * num = 2 * (divNearestEven num den * den) + den →
      divNearestEven num den % 2 = 0) := by
  have hdiv : num / den * den + num % den = num := Nat.div_add_mod' num den
  have hmod : num % den < den := Nat.mod_lt num hden
  unfold divNearestEven
  dsimp only
  split
  · refine ⟨by omega, by omega, fun h => ?_⟩
    omega
  · split
    · have e : (num / den + 1) * den = num / den * den + den := by ring
      rw [e]
      refine ⟨by omega, by omega, fun h => ?_⟩
      omega
    · rcases Nat.mod_two_eq_zero_or_one (num / den) with h | h
      · rw [h, Nat.add_zero]
        exact ⟨by omega, by omega, fun _ => h⟩
      · have e : (num / den + 1) * den = num / den * den + den := by ring
        rw [h, e]
        exact ⟨by omega, by omega, fun _ => by omega⟩

/-- An exact quotient is not changed. -/
theorem divNearestEven_mul (q den : Nat) (hden : 0 < den) : divNearestEven (q * den) den = q := by
  unfold divNearestEven
  simp [hden, Nat.mul_div_cancel q hden]

/-- Zero rounds to zero with the sign asked for. -/
@[simp] theorem F64.round_zero (neg : Bool) (den : Nat) (hden : 0 < den) : F64.round neg 0 den = .fin neg 0 := by
  have h : divNearestEven 0 (den * pow2 (lastPlace 0)) = 0 := by
    have := divNearestEven_mul 0 (den * pow2 (lastPlace 0)) (Nat.mul_pos hden (pow2_pos _))
    rwa [Nat.zero_mul] at this
  have hl : 0 < unitsLimit := pow2_pos 2098
  simp only [F64.round, Nat.zero_div, h, Nat.zero_mul, if_pos hl]

/-- Rounding gives no NaN, and keeps the sign. -/
theorem F64.round_cases (neg : Bool) (num den : Nat) :
    (∃ m, F64.round neg num den = .fin neg m ∧ m < unitsLimit) ∨ F64.round neg num den = .inf neg := by
  unfold F64.round
  dsimp only
  split
  · exact .inl ⟨_, rfl, ‹_›⟩
  · exact .inr rfl

/-- A comparison is the integers' where both values have a place in the order, and false otherwise (R10). -/
theorem F64.le_iff (a b : F64) : F64.le a b = true ↔ ∃ x y, a.key = some x ∧ b.key = some y ∧ x ≤ y := by
  unfold F64.le
  split <;> simp_all
theorem F64.lt_iff (a b : F64) : F64.lt a b = true ↔ ∃ x y, a.key = some x ∧ b.key = some y ∧ x < y := by
  unfold F64.lt
  split <;> simp_all

end Sys2Proof.Machine
end

