-- ==== Sys2Proof/Laws/State.lean ====
section
/-!
SUPPORT. The small lemmas of the state's updates: one per field per update, true by rfl, so that no proof unfolds an update.
-/

namespace Sys2Proof.Machine

@[simp] theorem recordSuccess_errLast (r : Regs) : (recordSuccess r).errLast = 0 := rfl
@[simp] theorem recordSuccess_errFirst (r : Regs) : (recordSuccess r).errFirst = r.errFirst := rfl
@[simp] theorem recordSuccess_inb (r : Regs) : (recordSuccess r).inb = r.inb := rfl
@[simp] theorem recordSuccess_nan (r : Regs) : (recordSuccess r).nan = r.nan := rfl
@[simp] theorem recordSuccess_order (r : Regs) : (recordSuccess r).order = r.order := rfl
@[simp] theorem recordSuccess_nreq (r : Regs) : (recordSuccess r).nreq = r.nreq := rfl
@[simp] theorem recordSuccess_width (r : Regs) : (recordSuccess r).width = r.width := rfl
@[simp] theorem recordSuccess_height (r : Regs) : (recordSuccess r).height = r.height := rfl
@[simp] theorem recordSuccess_dist (r : Regs) : (recordSuccess r).dist = r.dist := rfl
@[simp] theorem recordSuccess_coord (r : Regs) : (recordSuccess r).coord = r.coord := rfl
@[simp] theorem recordSuccess_f (r : Regs) : (recordSuccess r).f = r.f := rfl
@[simp] theorem recordSuccess_qbyte (r : Regs) : (recordSuccess r).qbyte = r.qbyte := rfl
@[simp] theorem recordSuccess_abyte (r : Regs) : (recordSuccess r).abyte = r.abyte := rfl
@[simp] theorem recordSuccess_native (r : Regs) : (recordSuccess r).native = r.native := rfl

@[simp] theorem recordError_errLast (e : ErrorCode) (r : Regs) : (recordError e r).errLast = errorNumber e := rfl
@[simp] theorem recordError_errFirst (e : ErrorCode) (r : Regs) : (recordError e r).errFirst = if r.errFirst = 0 then errorNumber e else r.errFirst := rfl
@[simp] theorem recordError_inb (e : ErrorCode) (r : Regs) : (recordError e r).inb = r.inb := rfl
@[simp] theorem recordError_nan (e : ErrorCode) (r : Regs) : (recordError e r).nan = r.nan := rfl
@[simp] theorem recordError_order (e : ErrorCode) (r : Regs) : (recordError e r).order = r.order := rfl
@[simp] theorem recordError_nreq (e : ErrorCode) (r : Regs) : (recordError e r).nreq = r.nreq := rfl
@[simp] theorem recordError_width (e : ErrorCode) (r : Regs) : (recordError e r).width = r.width := rfl
@[simp] theorem recordError_height (e : ErrorCode) (r : Regs) : (recordError e r).height = r.height := rfl
@[simp] theorem recordError_dist (e : ErrorCode) (r : Regs) : (recordError e r).dist = r.dist := rfl
@[simp] theorem recordError_coord (e : ErrorCode) (r : Regs) : (recordError e r).coord = r.coord := rfl
@[simp] theorem recordError_f (e : ErrorCode) (r : Regs) : (recordError e r).f = r.f := rfl
@[simp] theorem recordError_qbyte (e : ErrorCode) (r : Regs) : (recordError e r).qbyte = r.qbyte := rfl
@[simp] theorem recordError_abyte (e : ErrorCode) (r : Regs) : (recordError e r).abyte = r.abyte := rfl
@[simp] theorem recordError_native (e : ErrorCode) (r : Regs) : (recordError e r).native = r.native := rfl

@[simp] theorem stickyNan_errLast (met : Bool) (r : Regs) : (stickyNan met r).errLast = r.errLast := rfl
@[simp] theorem stickyNan_errFirst (met : Bool) (r : Regs) : (stickyNan met r).errFirst = r.errFirst := rfl
@[simp] theorem stickyNan_inb (met : Bool) (r : Regs) : (stickyNan met r).inb = r.inb := rfl
@[simp] theorem stickyNan_nan (met : Bool) (r : Regs) : (stickyNan met r).nan = (r.nan || met) := rfl
@[simp] theorem stickyNan_order (met : Bool) (r : Regs) : (stickyNan met r).order = r.order := rfl
@[simp] theorem stickyNan_nreq (met : Bool) (r : Regs) : (stickyNan met r).nreq = r.nreq := rfl
@[simp] theorem stickyNan_width (met : Bool) (r : Regs) : (stickyNan met r).width = r.width := rfl
@[simp] theorem stickyNan_height (met : Bool) (r : Regs) : (stickyNan met r).height = r.height := rfl
@[simp] theorem stickyNan_dist (met : Bool) (r : Regs) : (stickyNan met r).dist = r.dist := rfl
@[simp] theorem stickyNan_coord (met : Bool) (r : Regs) : (stickyNan met r).coord = r.coord := rfl
@[simp] theorem stickyNan_f (met : Bool) (r : Regs) : (stickyNan met r).f = r.f := rfl
@[simp] theorem stickyNan_qbyte (met : Bool) (r : Regs) : (stickyNan met r).qbyte = r.qbyte := rfl
@[simp] theorem stickyNan_abyte (met : Bool) (r : Regs) : (stickyNan met r).abyte = r.abyte := rfl
@[simp] theorem stickyNan_native (met : Bool) (r : Regs) : (stickyNan met r).native = r.native := rfl

@[simp] theorem writeInb_errLast (b : Bool) (r : Regs) : (writeInb b r).errLast = r.errLast := rfl
@[simp] theorem writeInb_errFirst (b : Bool) (r : Regs) : (writeInb b r).errFirst = r.errFirst := rfl
@[simp] theorem writeInb_inb (b : Bool) (r : Regs) : (writeInb b r).inb = b := rfl
@[simp] theorem writeInb_nan (b : Bool) (r : Regs) : (writeInb b r).nan = r.nan := rfl
@[simp] theorem writeInb_order (b : Bool) (r : Regs) : (writeInb b r).order = r.order := rfl
@[simp] theorem writeInb_nreq (b : Bool) (r : Regs) : (writeInb b r).nreq = r.nreq := rfl
@[simp] theorem writeInb_width (b : Bool) (r : Regs) : (writeInb b r).width = r.width := rfl
@[simp] theorem writeInb_height (b : Bool) (r : Regs) : (writeInb b r).height = r.height := rfl
@[simp] theorem writeInb_dist (b : Bool) (r : Regs) : (writeInb b r).dist = r.dist := rfl
@[simp] theorem writeInb_coord (b : Bool) (r : Regs) : (writeInb b r).coord = r.coord := rfl
@[simp] theorem writeInb_f (b : Bool) (r : Regs) : (writeInb b r).f = r.f := rfl
@[simp] theorem writeInb_qbyte (b : Bool) (r : Regs) : (writeInb b r).qbyte = r.qbyte := rfl
@[simp] theorem writeInb_abyte (b : Bool) (r : Regs) : (writeInb b r).abyte = r.abyte := rfl
@[simp] theorem writeInb_native (b : Bool) (r : Regs) : (writeInb b r).native = r.native := rfl

@[simp] theorem clearSticky_errLast (r : Regs) : (clearSticky r).errLast = r.errLast := rfl
@[simp] theorem clearSticky_errFirst (r : Regs) : (clearSticky r).errFirst = 0 := rfl
@[simp] theorem clearSticky_inb (r : Regs) : (clearSticky r).inb = r.inb := rfl
@[simp] theorem clearSticky_nan (r : Regs) : (clearSticky r).nan = false := rfl
@[simp] theorem clearSticky_order (r : Regs) : (clearSticky r).order = r.order := rfl
@[simp] theorem clearSticky_nreq (r : Regs) : (clearSticky r).nreq = r.nreq := rfl
@[simp] theorem clearSticky_width (r : Regs) : (clearSticky r).width = r.width := rfl
@[simp] theorem clearSticky_height (r : Regs) : (clearSticky r).height = r.height := rfl
@[simp] theorem clearSticky_dist (r : Regs) : (clearSticky r).dist = r.dist := rfl
@[simp] theorem clearSticky_coord (r : Regs) : (clearSticky r).coord = r.coord := rfl
@[simp] theorem clearSticky_f (r : Regs) : (clearSticky r).f = r.f := rfl
@[simp] theorem clearSticky_qbyte (r : Regs) : (clearSticky r).qbyte = r.qbyte := rfl
@[simp] theorem clearSticky_abyte (r : Regs) : (clearSticky r).abyte = r.abyte := rfl
@[simp] theorem clearSticky_native (r : Regs) : (clearSticky r).native = r.native := rfl

@[simp] theorem reply_regs (a : Reply) (s : State) : (reply a s).regs = s.regs := rfl
@[simp] theorem reply_inReset (a : Reply) (s : State) : (reply a s).inReset = s.inReset := rfl
@[simp] theorem reply_platform (a : Reply) (s : State) : (reply a s).platform = s.platform := rfl
@[simp] theorem reply_pending (a : Reply) (s : State) : (reply a s).pending = s.pending := rfl
@[simp] theorem reply_replies (a : Reply) (s : State) : (reply a s).replies = s.replies ++ [a] := rfl

@[simp] theorem resetRegs_regs (s : State) : (resetRegs s).regs = Regs.reset := rfl
@[simp] theorem resetRegs_inReset (s : State) : (resetRegs s).inReset = s.inReset := rfl
@[simp] theorem resetRegs_platform (s : State) : (resetRegs s).platform = s.platform := rfl
@[simp] theorem resetRegs_pending (s : State) : (resetRegs s).pending = s.pending := rfl
@[simp] theorem resetRegs_replies (s : State) : (resetRegs s).replies = s.replies := rfl

@[simp] theorem resetLine_true_regs (s : State) : (resetLine true s).regs = s.regs := rfl
@[simp] theorem resetLine_true_inReset (s : State) : (resetLine true s).inReset = true := rfl
@[simp] theorem resetLine_true_platform (s : State) : (resetLine true s).platform = s.platform := rfl
@[simp] theorem resetLine_true_pending (s : State) : (resetLine true s).pending = s.pending := rfl
@[simp] theorem resetLine_true_replies (s : State) : (resetLine true s).replies = s.replies := rfl

@[simp] theorem resetLine_false_regs (s : State) :
    (resetLine false s).regs = if s.inReset then Regs.reset else s.regs := by
  cases h : s.inReset <;> simp [resetLine, h]
@[simp] theorem resetLine_false_inReset (s : State) : (resetLine false s).inReset = false := by
  cases h : s.inReset <;> simp [resetLine, h]
@[simp] theorem resetLine_false_platform (s : State) : (resetLine false s).platform = s.platform := by
  cases h : s.inReset <;> simp [resetLine, h]
@[simp] theorem resetLine_false_pending (s : State) : (resetLine false s).pending = s.pending := by
  cases h : s.inReset <;> simp [resetLine, h]
@[simp] theorem resetLine_false_replies (s : State) : (resetLine false s).replies = s.replies := by
  cases h : s.inReset <;> simp [resetLine, h]

@[simp] theorem State.withFetchWord_regs (nbits w : Nat) (s : State) : (s.withFetchWord nbits w).regs = s.regs := rfl
@[simp] theorem State.withFetchWord_inReset (nbits w : Nat) (s : State) : (s.withFetchWord nbits w).inReset = false := rfl
@[simp] theorem State.withFetchWord_platform (nbits w : Nat) (s : State) : (s.withFetchWord nbits w).platform = s.platform := rfl
@[simp] theorem State.withFetchWord_pending (nbits w : Nat) (s : State) : (s.withFetchWord nbits w).pending = commandEvent s.platform nbits w :: s.pending := rfl
@[simp] theorem State.withFetchWord_replies (nbits w : Nat) (s : State) : (s.withFetchWord nbits w).replies = s.replies := rfl

@[simp] theorem State.resetOn_regs (p : Config.Platform) : (State.resetOn p).regs = Regs.reset := rfl
@[simp] theorem State.resetOn_inReset (p : Config.Platform) : (State.resetOn p).inReset = false := rfl
@[simp] theorem State.resetOn_platform (p : Config.Platform) : (State.resetOn p).platform = p := rfl
@[simp] theorem State.resetOn_pending (p : Config.Platform) : (State.resetOn p).pending = [] := rfl
@[simp] theorem State.resetOn_replies (p : Config.Platform) : (State.resetOn p).replies = [] := rfl

end Sys2Proof.Machine
end

