-- ==== Sys2Proof/Laws/Ops.lean ====
section
/-!
SUPPORT. One lemma per shared operation, which says everything the operation can do; proofs cite these and do not unfold it.
-/

namespace Sys2Proof.Machine

/-- All that the error procedure can do (R102). -/
theorem raiseError_next_iff (e : ErrorCode) (s t : State) :
    raiseError e s = .next t ↔ t = { s with regs := recordError e s.regs } := by
  simp [raiseError, eq_comm]

/-- All that success can do (R104). -/
theorem succeed_next_iff (r : Regs) (s t : State) :
    succeed r s = .next t ↔ t = { s with regs := recordSuccess r } := by
  simp [succeed, eq_comm]

/-- All that a bad access can do (R39). -/
theorem badAccess_next_iff (s t : State) :
    badAccess s = .next t ↔ s.platform.busErrorOnBadAccess = true ∧ t = reply .busError s := by
  unfold badAccess
  cases h : s.platform.busErrorOnBadAccess <;> simp [eq_comm]

/-- No error has the code of success (R101). -/
theorem errorNumber_ne_zero (e : ErrorCode) : errorNumber e ≠ 0 := by cases e <;> decide

/-- The codes of R101 are 1 to 5. -/
theorem errorNumber_le_five (e : ErrorCode) : (errorNumber e).toNat ≤ 5 := by cases e <;> decide

/-- Every named register is found at its offset (R40). -/
@[simp] theorem regAt_offset (r : RegName) : regAt r.offset = some r := by cases r <;> rfl

/-- A register is found nowhere but at its offset (R40). -/
theorem regAt_eq_some_iff (off : Nat) (r : RegName) : regAt off = some r ↔ off = r.offset := by
  constructor
  · intro h
    unfold regAt at h
    split at h <;> simp_all [RegName.offset] <;> (subst h; rfl)
  · rintro rfl
    exact regAt_offset r

/-- The reserved offsets hold no register (R41). -/
@[simp] theorem regAt_reserved : regAt 0x38 = none ∧ regAt 0x3C = none := ⟨rfl, rfl⟩

/-- Every offset of a register is a multiple of 4 in the window (R38, R40). -/
theorem regName_offset_aligned (r : RegName) : r.offset % 4 = 0 ∧ r.offset < 64 := by
  cases r <;> decide

/-- An address of the window has its offset (R36). -/
theorem windowOffset_base_add (p : Config.Platform) (off : Nat) (h : off < 64) :
    windowOffset p (p.base + off) = some off := by
  have : p.base ≤ p.base + off ∧ p.base + off < p.base + Config.windowSize :=
    ⟨Nat.le_add_right _ _, by simpa [Config.windowSize] using h⟩
  simp [windowOffset, this]

/-- All that the address check can do (R36). -/
theorem windowOffset_eq_some_iff (p : Config.Platform) (addr off : Nat) :
    windowOffset p addr = some off ↔ addr = p.base + off ∧ off < 64 := by
  unfold windowOffset Config.windowSize
  split <;> simp <;> omega

/-- The window is aligned to 64 bytes, so an address and its offset are aligned alike (R36). -/
theorem base_add_mod_four (p : Config.Platform) (off : Nat) : (p.base + off) % 4 = off % 4 := by
  unfold Config.Platform.base Config.windowSize
  omega

/-- A write reaches one register and no other (R40): any register at another offset reads as before. -/
theorem readReg_writeReg_of_ne (r : Regs) (v : Word) (a b : RegName) (h : a ≠ b) :
    readReg (writeReg r v a) b = readReg r b := by
  cases a <;> cases b <;> first
    | exact absurd rfl h
    | rfl
    | exact float_high_half _ _
    | exact float_low_half _ _

/-- A write over the bus leaves `STATUS` and `ORDER` alone (R15, R21). -/
@[simp] theorem writeReg_errLast (r : Regs) (v : Word) (a : RegName) : (writeReg r v a).errLast = r.errLast := by
  cases a <;> rfl
@[simp] theorem writeReg_errFirst (r : Regs) (v : Word) (a : RegName) : (writeReg r v a).errFirst = r.errFirst := by
  cases a <;> rfl
@[simp] theorem writeReg_inb (r : Regs) (v : Word) (a : RegName) : (writeReg r v a).inb = r.inb := by
  cases a <;> rfl
@[simp] theorem writeReg_nan (r : Regs) (v : Word) (a : RegName) : (writeReg r v a).nan = r.nan := by
  cases a <;> rfl
@[simp] theorem writeReg_order (r : Regs) (v : Word) (a : RegName) : (writeReg r v a).order = r.order := by
  cases a <;> rfl

end Sys2Proof.Machine
end

