-- ==== Sys2Proof/Laws/Colour.lean ====
section
/-!
SUPPORT. What the shared operations of the colour commands can do, said once (R83, R84, R99), and the finite cases of the
arithmetic.
-/

namespace Sys2Proof.Machine

/-- All that the end of a float-to-byte command can do (R83, R84). -/
theorem finishByte_next_iff (q : Byte × Bool) (s t : State) :
    finishByte q s = .next t ↔ t = { s with regs := { s.regs with qbyte := q.1, nan := s.regs.nan || q.2, errLast := 0 } } := by
  rw [finishByte, succeed_next_iff]
  rfl

/-- All that the end of a command whose result is a float can do (R83). -/
theorem finishFloat_next_iff (v : F64) (s t : State) :
    finishFloat v s = .next t ↔ t = { s with regs := { s.regs with f := v.bits, errLast := 0 } } := by
  rw [finishFloat, succeed_next_iff]
  rfl

/-- All that the float-to-byte step can answer (R84). -/
theorem qbyteStep_cases (t : F64) (mode : Config.RoundMode) :
    (t.isNaN = true ∧ qbyteStep t mode = (0, true)) ∨
    (t.isNaN = false ∧ F64.le (F64.ofNat 255) t = true ∧ qbyteStep t mode = (255, false)) ∨
    (t.isNaN = false ∧ F64.le (F64.ofNat 255) t = false ∧ F64.le t (F64.ofNat 0) = true ∧ qbyteStep t mode = (0, false)) ∨
    (t.isNaN = false ∧ F64.le (F64.ofNat 255) t = false ∧ F64.le t (F64.ofNat 0) = false ∧
      qbyteStep t mode = (match mode with | .nearest => roundNear t | .truncate => trunc t, false)) := by
  unfold qbyteStep
  cases t.isNaN <;> cases F64.le (F64.ofNat 255) t <;> cases F64.le t (F64.ofNat 0) <;> cases mode <;> simp

/-- All that `clamp1` can answer (R99). -/
theorem clamp1_cases (v : F64) :
    (F64.lt v (F64.ofNat 1).neg = true ∧ clamp1 v = (F64.ofNat 1).neg) ∨
    (F64.lt v (F64.ofNat 1).neg = false ∧ F64.lt (F64.ofNat 1) v = true ∧ clamp1 v = F64.ofNat 1) ∨
    (F64.lt v (F64.ofNat 1).neg = false ∧ F64.lt (F64.ofNat 1) v = false ∧ clamp1 v = v) := by
  unfold clamp1
  cases F64.lt v (F64.ofNat 1).neg <;> cases F64.lt (F64.ofNat 1) v <;> simp

/-- The product of finite values is their exact product rounded once (R10). -/
theorem fMul_fin (s t : Bool) (m n : Nat) : fMul (.fin s m) (.fin t n) = F64.round (s ^^ t) (m * n) unitsPerOne := rfl

/-- The quotient of finite values, the divisor not 0, is their exact quotient rounded once (R10). -/
theorem fDiv_fin (s t : Bool) (m n : Nat) (hn : n ≠ 0) :
    fDiv (.fin s m) (.fin t n) = F64.round (s ^^ t) (m * unitsPerOne) n := by
  simp [fDiv, hn]

/-- The sum of finite values, where it is not 0, is their exact sum rounded once (R10). -/
theorem fAdd_fin (s t : Bool) (m n : Nat) (h : signedUnits s m + signedUnits t n ≠ 0) :
    fAdd (.fin s m) (.fin t n) =
      F64.round (decide (signedUnits s m + signedUnits t n < 0)) (signedUnits s m + signedUnits t n).natAbs 1 := by
  simp [fAdd, h]

end Sys2Proof.Machine
end

