-- ==== Sys2Proof/Laws/Decode.lean ====
section
/-!
SUPPORT. What the decoder can answer, once: its callers cite these and do not unfold it.
-/

namespace Sys2Proof

/-- Every opcode of R58 is mapped to its command. -/
@[simp] theorem opcodeMap_opcode (i : Instr) : opcodeMap (opcode i) = some i := by cases i <;> rfl

/-- The two fields of an encoded command (R54, R58). -/
@[simp] theorem opField_encode (i : Instr) : opField (encode i) = opcode i := by cases i <;> decide
@[simp] theorem rsvField_encode (i : Instr) : rsvField (encode i) = 0 := by cases i <;> decide

/-- All the opcode map can answer (R58): an opcode maps to a command exactly where it is that command's. -/
theorem opcodeMap_eq_some_iff (op : Byte) (i : Instr) : opcodeMap op = some i ↔ op = opcode i := by
  constructor
  · intro h
    have hop : op.toNat < 256 := op.isLt
    apply BitVec.eq_of_toNat_eq
    unfold opcodeMap at h
    split at h <;> simp_all <;> (subst h; rfl)
  · rintro rfl
    exact opcodeMap_opcode i

/-- All the decoder can accept (R57). -/
theorem decode_eq_ok_iff (w : Word) (i : Instr) :
    decode w = .ok i ↔ opcodeMap (opField w) = some i ∧ rsvField w = 0 := by
  unfold decode
  split
  · simp_all
  · split <;> simp_all

/-- A word is its two fields (R54). -/
theorem rsvField_append_opField (w : Word) : (rsvField w ++ opField w : Word) = w := command_of_fields w

end Sys2Proof
end

