-- ==== Sys2Proof/Laws/Hilbert.lean ====
section
/-!
SUPPORT. The lemmas of the curve's helpers: the powers of two, the quadrant transform, and one pass of each loop.
-/

namespace Sys2Proof.Machine

/-- R67: `is_pow2` accepts exactly the powers of two. -/
theorem isPow2_iff (v : Nat) : isPow2 v = true ↔ ∃ k, v = 2 ^ k := by
  unfold isPow2
  rcases Nat.eq_zero_or_pos v with rfl | hv
  · simp only [bne_self_eq_false, Bool.false_and, Bool.false_eq_true, false_iff, not_exists]
    intro k h
    exact absurd h (Nat.two_pow_pos k).ne
  · have h0 : (v != 0) = true := by simpa using hv.ne'
    rw [h0, Bool.true_and, beq_iff_eq, Nat.and_sub_one_eq_zero_iff_isPowerOfTwo hv.ne']
    rfl

/-- R69: the transform keeps a pair inside its square. -/
theorem rot_lt (s x y rx ry : Nat) (hx : x < s) (hy : y < s) :
    (rot s x y rx ry).1 < s ∧ (rot s x y rx ry).2 < s := by
  unfold rot
  split
  · split <;> simp only <;> omega
  · exact ⟨hx, hy⟩

/-- R69: the transform is its own inverse. -/
theorem rot_rot (s x y rx ry : Nat) (hx : x < s) (hy : y < s) :
    rot s (rot s x y rx ry).1 (rot s x y rx ry).2 rx ry = (x, y) := by
  unfold rot
  by_cases h : ry = 0
  · by_cases h' : rx = 1
    · simp only [h, h', if_true, Prod.mk.injEq]
      omega
    · simp [h, h']
  · simp [h]

/-- R70: one pass of the loop of `hilbert_d2xy`. -/
theorem d2xyLoop_succ_of_lt (n k s x y t : Nat) (h : s < n) :
    d2xyLoop n (k + 1) s x y t =
      d2xyLoop n k (2 * s)
        ((rot s x y ((t >>> 1) &&& 1) ((t &&& 1) ^^^ ((t >>> 1) &&& 1))).1 + s * ((t >>> 1) &&& 1))
        ((rot s x y ((t >>> 1) &&& 1) ((t &&& 1) ^^^ ((t >>> 1) &&& 1))).2 + s * ((t &&& 1) ^^^ ((t >>> 1) &&& 1)))
        (t >>> 2) := by
  simp [d2xyLoop, h]

/-- R70: the loop has ended once `s` is `n` or more. -/
@[simp] theorem d2xyLoop_of_le (n k s x y t : Nat) (h : n ≤ s) : d2xyLoop n k s x y t = (x, y) := by
  cases k with
  | zero => rfl
  | succ k => simp [d2xyLoop, Nat.not_lt.mpr h]

/-- R71: the loop has ended once `s` is 0. -/
@[simp] theorem xy2dLoop_zero (n k x y d : Nat) : xy2dLoop n k 0 x y d = d := by
  cases k <;> simp [xy2dLoop]

/-- R68: the loop of `npot` goes on only from a power of two to a power of two. -/
theorem npotLoop_isPow2 (k j m : Nat) : ∃ i, npotLoop k (2 ^ j) m = 2 ^ i ∧ j ≤ i ∧ i ≤ j + k := by
  induction k generalizing j with
  | zero => exact ⟨j, rfl, le_refl j, by omega⟩
  | succ k ih =>
    unfold npotLoop
    split
    · obtain ⟨i, hi, hj, hk⟩ := ih (j + 1)
      exact ⟨i, by rw [← hi, pow_succ, Nat.mul_comm], by omega, by omega⟩
    · exact ⟨j, rfl, le_refl j, by omega⟩

end Sys2Proof.Machine
end

