-- ==== Sys2Proof/Laws/PerInstr.lean ====
section
/-!
SUPPORT. The statements made per command: the word of every command is well formed (R54, R58, R60), one lemma per constructor.
-/

namespace Sys2Proof.Laws.EncodedWordWellFormed

/-- The word the encoder writes for `i` has an implemented opcode and no reserved bit, and `i` is well formed. -/
def Statement (i : Instr) : Prop :=
  CommandWord.wellFormed (encode i) = true ∧ i.wellFormed = true

theorem nop : Statement .nop := by unfold Statement; decide
theorem clear : Statement .clear := by unfold Statement; decide
theorem setn : Statement .setn := by unfold Statement; decide
theorem setdim : Statement .setdim := by unfold Statement; decide
theorem d2xy : Statement .d2xy := by unfold Statement; decide
theorem xy2d : Statement .xy2d := by unfold Statement; decide
theorem bounds : Statement .bounds := by unfold Statement; decide
theorem qh : Statement .qh := by unfold Statement; decide
theorem qc : Statement .qc := by unfold Statement; decide
theorem ql : Statement .ql := by unfold Statement; decide
theorem qa : Statement .qa := by unfold Statement; decide
theorem dqh : Statement .dqh := by unfold Statement; decide
theorem dqc : Statement .dqc := by unfold Statement; decide
theorem dql : Statement .dql := by unfold Statement; decide
theorem premul : Statement .premul := by unfold Statement; decide
theorem unpremul : Statement .unpremul := by unfold Statement; decide
theorem nalpha : Statement .nalpha := by unfold Statement; decide

end Sys2Proof.Laws.EncodedWordWellFormed
end

