-- ==== Sys2Proof/Laws/Step.lean ====
section
/-!
SUPPORT. What a step can do, said once (R36 to R43, R117): every statement about all steps is a case analysis on these.
-/

namespace Sys2Proof.Machine

/-- A word of a command runs its meaning; any other word takes the error procedure (R57). -/
theorem runCommand_of_decode (w : Word) (s : State) (i : Instr) (h : decode w = .ok i) : runCommand w s = exec i s := by
  simp [runCommand, h]
theorem runCommand_of_reject (w : Word) (s : State) (e : DecodeError) (h : decode w = .error e) :
    runCommand w s = raiseError .illegalCommand s := by
  simp [runCommand, h]

/-- All that a command word can do (R57). -/
theorem runCommand_cases (w : Word) (s : State) :
    (∃ i, decode w = .ok i ∧ runCommand w s = exec i s) ∨
    ((∀ i, decode w ≠ .ok i) ∧ runCommand w s = raiseError .illegalCommand s) := by
  cases h : decode w with
  | ok i => exact .inl ⟨i, rfl, runCommand_of_decode w s i h⟩
  | error e => exact .inr ⟨by simp, runCommand_of_reject w s e h⟩

/-- A 32-bit read at an aligned offset of the window is served (R38, R40). -/
theorem serveAccess_read (s : State) (off : Nat) (hr : s.inReset = false) (hoff : off < 64) (hal : off % 4 = 0) :
    serveAccess (.read (s.platform.base + off) 4) s = .next (reply (.value (readWindow off s.regs)) s) := by
  simp [serveAccess, hr, Access.addr, windowOffset_base_add _ _ hoff, serveAt, Access.bytes, hal, serveRead]

/-- A 32-bit write at an aligned offset of the window other than `CMD` stores its word (R38, R40). -/
theorem serveAccess_write (s : State) (off : Nat) (v : Word) (hr : s.inReset = false) (hoff : off < 64)
    (hal : off % 4 = 0) (hc : off ≠ 0x08) :
    serveAccess (.write (s.platform.base + off) 4 v) s = .next { s with regs := writeWindow off v s.regs } := by
  have : regAt off ≠ some .cmd := fun h => hc ((regAt_eq_some_iff off .cmd).mp h)
  simp [serveAccess, hr, Access.addr, windowOffset_base_add _ _ hoff, serveAt, Access.bytes, hal, serveWrite, this]

/-- A 32-bit write to `CMD` runs its word (R20). -/
theorem serveAccess_command (s : State) (w : Word) (hr : s.inReset = false) :
    serveAccess (.write (s.platform.base + 8) 4 w) s = runCommand w s := by
  simp [serveAccess, hr, Access.addr, windowOffset_base_add _ 8 (by decide), serveAt, Access.bytes, serveWrite, regAt]

/-- All that an access can do where the machine goes on: a read answers, a write stores, a write to `CMD` runs a command, or the
host gets a bus error (R36 to R42). -/
theorem serveAccess_next_cases (a : Access) (s t : State) (h : serveAccess a s = .next t) :
    s.inReset = false ∧
    ((∃ off, a = .read (s.platform.base + off) 4 ∧ t = reply (.value (readWindow off s.regs)) s) ∨
     (∃ off v, a = .write (s.platform.base + off) 4 v ∧ off ≠ 0x08 ∧ t = { s with regs := writeWindow off v s.regs }) ∨
     (∃ w, a = .write (s.platform.base + 8) 4 w ∧ runCommand w s = .next t) ∨
     (s.platform.busErrorOnBadAccess = true ∧ t = reply .busError s)) := by
  unfold serveAccess at h
  by_cases hr : s.inReset = true
  · simp [hr] at h
  have hr : s.inReset = false := by simpa using hr
  refine ⟨hr, ?_⟩
  simp only [hr, Bool.false_eq_true, if_false] at h
  split at h
  case h_2 => simp at h
  case h_1 off hoff =>
    obtain ⟨haddr, hlt⟩ := (windowOffset_eq_some_iff _ _ _).mp hoff
    unfold serveAt at h
    split at h
    case isFalse => exact .inr (.inr (.inr ((badAccess_next_iff s t).mp h)))
    case isTrue hok =>
      cases a with
      | read addr bytes =>
        simp only [Access.addr, Access.bytes] at haddr hok
        obtain rfl := haddr
        obtain rfl := hok.1
        simp only [serveRead, Host.Outcome.next.injEq] at h
        exact .inl ⟨off, rfl, h.symm⟩
      | write addr bytes v =>
        simp only [Access.addr, Access.bytes] at haddr hok
        obtain rfl := haddr
        obtain rfl := hok.1
        simp only [serveWrite] at h
        split at h
        case isTrue hc =>
          obtain rfl := (regAt_eq_some_iff off .cmd).mp hc
          exact .inr (.inr (.inl ⟨v, rfl, h⟩))
        case isFalse hc =>
          simp only [Host.Outcome.next.injEq] at h
          exact .inr (.inl ⟨off, v, rfl, fun h8 => hc (h8 ▸ rfl), h.symm⟩)

/-- All that a step can do where the machine goes on: wait, or take the next event whole (R47, R119). -/
theorem step_next_cases (s t : State) (h : step s = .next t) :
    (s.pending = [] ∧ t = s) ∨
    (∃ a rest, s.pending = .access a :: rest ∧ serveAccess a { s with pending := rest } = .next t) ∨
    (∃ b rest, s.pending = .resetLine b :: rest ∧ t = resetLine b { s with pending := rest }) ∨
    (∃ rest, s.pending = .powerCycle :: rest ∧ t = resetRegs { s with pending := rest }) := by
  unfold step nextEvent at h
  split at h
  case h_1 hp => exact .inl ⟨hp, by simpa using h.symm⟩
  case h_2 e rest hp =>
    cases e with
    | access a => exact .inr (.inl ⟨a, rest, hp, h⟩)
    | resetLine b => exact .inr (.inr (.inl ⟨b, rest, hp, by simpa [serveEvent] using h.symm⟩))
    | powerCycle => exact .inr (.inr (.inr ⟨rest, hp, by simpa [serveEvent] using h.symm⟩))

/-- `withFetchWord` makes the next step run the word (R20). -/
theorem step_withFetchWord (s : State) (nbits w : Nat) :
    step (s.withFetchWord nbits w) = runCommand (BitVec.ofNat 32 (w % 2 ^ nbits)) { s with inReset := false } := by
  have := serveAccess_command { s with inReset := false } (BitVec.ofNat 32 (w % 2 ^ nbits)) rfl
  simpa [step, nextEvent, State.withFetchWord, commandEvent, serveEvent, wrAccess, RegName.offset] using this

end Sys2Proof.Machine
end

