-- ==== Sys2Proof/Tests/Slice0.lean ====
section
/-!
SUPPORT. Small checks of the model: every command's word as spec/30_encoding.md writes it (R58), one or two vectors of
spec/95_test_vectors.md per command, the checks of WellFormed on ill-formed terms, and a witness for the hypotheses of every
statement that has some. Expected values come from the spec; each test names its source.
-/

namespace Sys2Proof.Tests

open Sys2Proof Sys2Proof.Machine Sys2Proof.Claims

/-- The machine with these registers. -/
def at' (r : Regs) : State := { State.reset with regs := r }

/-- One step that runs the word `w` ends in registers that pass the check. -/
def runs (w : Nat) (r : Regs) (check : Regs → Bool) : Bool :=
  match step ((at' r).withFetchWord 32 w) with
  | .next t => check t.regs
  | _ => false

/-! ### WellFormed refuses ill-formed terms -/

/-- R59: opcode 0x1B is reserved. -/
theorem test_wf_reserved_opcode : CommandWord.wellFormed 0x0000001B#32 = false := by decide
/-- R60: a reserved bit is set. -/
theorem test_wf_reserved_bit : CommandWord.wellFormed 0x80000004#32 = false := by decide
/-- R36: an address above the window. -/
theorem test_wf_outside_window : Access.wellFormed Config.Platform.default (.read 0x40 4) = false := by decide
/-- R38: a 16-bit access. -/
theorem test_wf_half_word : Access.wellFormed Config.Platform.default (.write 0x10 2 0) = false := by decide
/-- R38: an address that is not a multiple of 4. -/
theorem test_wf_misaligned : Access.wellFormed Config.Platform.default (.read 0x11 4) = false := by decide
/-- R38: the last word of the window. -/
theorem test_wf_last_word : Access.wellFormed Config.Platform.default (.read 0x3C 4) = true := by decide

/-! ### Every command's word, written out from R58 -/

theorem test_decode_nop : decode 0b00000000000000000000000000000000#32 = .ok .nop := by decide
theorem test_decode_clear : decode 0b00000000000000000000000000000001#32 = .ok .clear := by decide
theorem test_decode_setn : decode 0b00000000000000000000000000000010#32 = .ok .setn := by decide
theorem test_decode_setdim : decode 0b00000000000000000000000000000011#32 = .ok .setdim := by decide
theorem test_decode_d2xy : decode 0b00000000000000000000000000000100#32 = .ok .d2xy := by decide
theorem test_decode_xy2d : decode 0b00000000000000000000000000000101#32 = .ok .xy2d := by decide
theorem test_decode_bounds : decode 0b00000000000000000000000000000110#32 = .ok .bounds := by decide
theorem test_decode_qh : decode 0b00000000000000000000000000010000#32 = .ok .qh := by decide
theorem test_decode_qc : decode 0b00000000000000000000000000010001#32 = .ok .qc := by decide
theorem test_decode_ql : decode 0b00000000000000000000000000010010#32 = .ok .ql := by decide
theorem test_decode_qa : decode 0b00000000000000000000000000010011#32 = .ok .qa := by decide
theorem test_decode_dqh : decode 0b00000000000000000000000000011000#32 = .ok .dqh := by decide
theorem test_decode_dqc : decode 0b00000000000000000000000000011001#32 = .ok .dqc := by decide
theorem test_decode_dql : decode 0b00000000000000000000000000011010#32 = .ok .dql := by decide
theorem test_decode_premul : decode 0b00000000000000000000000000100000#32 = .ok .premul := by decide
theorem test_decode_unpremul : decode 0b00000000000000000000000000100001#32 = .ok .unpremul := by decide
theorem test_decode_nalpha : decode 0b00000000000000000000000000100010#32 = .ok .nalpha := by decide
/-- R57: the opcode is checked before the reserved bits. -/
theorem test_decode_rejects : decode 0x0000011B#32 = .error (.reservedOpcode 0x1B) ∧
    decode 0x00000101#32 = .error .reservedBits := by decide
theorem test_decodeTableWord : decodeTableWord 32 0x21 = some .unpremul ∧ decodeTableWord 32 0x121 = none := by decide

/-! ### Commands, by the vectors of 95_test_vectors.md -/

/-- V72. -/
theorem test_nop : runs 0x00 { Regs.reset with errLast := 3, errFirst := 2, inb := true, nan := true }
    (fun r => statusWord r == 0x320) = true := by decide
/-- V73. -/
theorem test_clear : runs 0x01 { Regs.reset with errLast := 3, errFirst := 2, inb := true, nan := true }
    (fun r => statusWord r == 0x100) = true := by decide
/-- V4. -/
theorem test_setn_largest : runs 0x02 { Regs.reset with nreq := 65536, order := 4 }
    (fun r => r.order == 65536 && statusWord r == 0) = true := by decide +kernel
/-- V7. -/
theorem test_setn_too_large : runs 0x02 { Regs.reset with nreq := 131072, order := 4 }
    (fun r => r.order == 4 && statusWord r == 0x22) = true := by decide +kernel
/-- V20. -/
theorem test_setdim_largest : runs 0x03 { Regs.reset with width := 32769, height := 2, order := 8 }
    (fun r => r.order == 65536 && statusWord r == 0) = true := by decide +kernel
/-- V24. -/
theorem test_setdim_too_wide : runs 0x03 { Regs.reset with width := 4294967295, order := 8 }
    (fun r => r.order == 8 && statusWord r == 0x33) = true := by decide +kernel
/-- V43. -/
theorem test_d2xy : runs 0x04 { Regs.reset with order := 65536, dist := 0x12345678, coord := 0xDEADBEEF }
    (fun r => r.coord == 0x15EA5306 && statusWord r == 0) = true := by decide +kernel
/-- V34. -/
theorem test_d2xy_out_of_range : runs 0x04 { Regs.reset with order := 4, dist := 0x10, coord := 0xDEADBEEF }
    (fun r => r.coord == 0xDEADBEEF && statusWord r == 0x44) = true := by decide +kernel
/-- V57. -/
theorem test_xy2d : runs 0x05 { Regs.reset with order := 256, coord := 0x000D00C8, dist := 0x55555555 }
    (fun r => r.dist == 0x0000F093 && statusWord r == 0) = true := by decide +kernel
/-- V55. -/
theorem test_xy2d_out_of_range : runs 0x05 { Regs.reset with order := 4, coord := 0x00040000, dist := 0x55555555 }
    (fun r => r.dist == 0x55555555 && statusWord r == 0x55) = true := by decide +kernel
/-- V62. -/
theorem test_bounds_inside : runs 0x06 { Regs.reset with width := 3, height := 2, coord := 0x00010002 }
    (fun r => statusWord r == 0x100) = true := by decide +kernel
/-- V64. -/
theorem test_bounds_outside : runs 0x06 { Regs.reset with width := 3, height := 2, coord := 0x00020000, inb := true }
    (fun r => statusWord r == 0) = true := by decide +kernel
/-- V90: a tie goes up. -/
theorem test_qh_tie : runs 0x10 { Regs.reset with f := 0x3FE6969696969697 }
    (fun r => r.qbyte == 1 && statusWord r == 0) = true := by decide +kernel
/-- V101: a NaN with its sign and payload set. -/
theorem test_qh_nan : runs 0x10 { Regs.reset with f := 0xFFF8000000000001, qbyte := 7 }
    (fun r => r.qbyte == 0 && statusWord r == 0x200) = true := by decide +kernel
/-- V111. -/
theorem test_qc_tie : runs 0x11 { Regs.reset with f := 0x3FD999999999999A }
    (fun r => r.qbyte == 179) = true := by decide +kernel
/-- V113. -/
theorem test_qc_below_half : runs 0x11 { Regs.reset with f := 0xBF70101010101010 }
    (fun r => r.qbyte == 127) = true := by decide +kernel
/-- V118. -/
theorem test_ql : runs 0x12 { Regs.reset with f := 0xBFD0000000000000 } (fun r => r.qbyte == 96) = true := by decide +kernel
/-- V128. -/
theorem test_qa_tie : runs 0x13 { Regs.reset with f := 0x3F84141414141414 } (fun r => r.qbyte == 3) = true := by
  decide +kernel
/-- V126. -/
theorem test_qa_negative : runs 0x13 { Regs.reset with f := 0xBFB999999999999A, qbyte := 9 }
    (fun r => r.qbyte == 0 && statusWord r == 0) = true := by decide +kernel
/-- V140. -/
theorem test_dqh : runs 0x18 { Regs.reset with qbyte := 181 } (fun r => r.f == 0x406FDA3A3A3A3A3B) = true := by
  decide +kernel
/-- V146: the last bits cancel in the subtraction. -/
theorem test_dqc : runs 0x19 { Regs.reset with qbyte := 127 } (fun r => r.f == 0xBF70101010101000) = true := by
  decide +kernel
/-- V152. -/
theorem test_dql : runs 0x1A { Regs.reset with qbyte := 96 } (fun r => r.f == 0xBFCF9F9F9F9F9FA0) = true := by
  decide +kernel
/-- V164: an infinity times zero. -/
theorem test_premul_inf_zero : runs 0x20 { Regs.reset with f := 0x7FF0000000000000, qbyte := 5 }
    (fun r => r.qbyte == 0 && statusWord r == 0x200) = true := by decide +kernel
/-- V156 and V168: the two values of PREMUL_ROUND. -/
theorem test_premul_round :
    (∀ m : Config.RoundMode, ∀ b : Byte, (m = .nearest ∧ b = 128) ∨ (m = .truncate ∧ b = 127) →
      ∃ t, exec .premul { State.reset with
          regs := { Regs.reset with f := 0x3FE0000000000000, abyte := 255 }
          platform := { Config.Platform.default with premulRound := m } } = .next t ∧ t.regs.qbyte = b) := by
  rintro m b (⟨rfl, rfl⟩ | ⟨rfl, rfl⟩) <;> exact ⟨_, rfl, by decide +kernel⟩
/-- R11: the largest value below a half goes to 0, a half to 1. -/
theorem test_round_near_half : roundNear (f64bits 0x3FDFFFFFFFFFFFFF#64) = 0 ∧ roundNear (f64bits 0x3FE0000000000000#64) = 1 := by
  decide +kernel
/-- V180. -/
theorem test_unpremul : runs 0x21 { Regs.reset with native := 0xFFFF5555 } (fun r => r.f == 0x3FD5555555555555) = true := by
  decide +kernel
/-- V174: alpha 0. -/
theorem test_unpremul_zero : runs 0x21 { Regs.reset with native := 0x00000064, f := 0x3FF0000000000000 }
    (fun r => r.f == 0) = true := by decide +kernel
/-- V190. -/
theorem test_nalpha : runs 0x22 { Regs.reset with native := 0x7FFF1234 } (fun r => r.f == 0x3FDFFFDFFFDFFFE0) = true := by
  decide +kernel
/-- V85: a reserved opcode, and the first error kept. -/
theorem test_illegal_keeps_first : runs 0x1B { Regs.reset with errFirst := 4 } (fun r => statusWord r == 0x41) = true := by
  decide

/-! ### Witnesses: the hypotheses of every statement that has some are met, each clause at the ends of its range -/

theorem test_witness_illegal_words :
    (0x00000100#32).extractLsb' 8 24 ≠ 0 ∧ (0x80000004#32).extractLsb' 8 24 ≠ 0 ∧
    0x07 ≤ (0x07#32).toNat % 256 ∧ (0x0F#32).toNat % 256 ≤ 0x0F ∧ 0x14 ≤ (0x14#32).toNat % 256 ∧
    (0x17#32).toNat % 256 ≤ 0x17 ∧ 0x1B ≤ (0x1B#32).toNat % 256 ∧ (0x1F#32).toNat % 256 ≤ 0x1F ∧
    0x23 ≤ (0x23#32).toNat % 256 ∧ 0x23 ≤ (0xFF#32).toNat % 256 := by decide
theorem test_witness_clear_reserved : (1#24 : BitVec 24) ≠ 0 ∧ (0x800000#24 : BitVec 24) ≠ 0 := by decide
theorem test_witness_setn_legal : LegalOrder (at' Regs.reset).regs.nreq.toNat ∧
    LegalOrder (at' { Regs.reset with nreq := 65536 }).regs.nreq.toNat :=
  ⟨⟨0, by decide, by decide⟩, ⟨16, by decide, by decide⟩⟩
theorem test_witness_setn_illegal : ∀ v ∈ [0#32, 3#32, 65537#32, 131072#32, 0xFFFFFFFF#32],
    ¬ LegalOrder (at' { Regs.reset with nreq := v }).regs.nreq.toNat := by
  rintro v hv ⟨k, hk, h⟩
  simp only [List.mem_cons, List.not_mem_nil, or_false, at'] at hv h
  obtain rfl | rfl | rfl | rfl | rfl := hv <;> interval_cases k <;> simp at h
theorem test_witness_setdim :
    ((at' { Regs.reset with width := 65535, height := 65535 }).regs.width.toNat ≤ 65535 ∧
      (at' { Regs.reset with width := 65535, height := 65535 }).regs.height.toNat ≤ 65535) ∧
    65535 < (at' { Regs.reset with width := 65536 }).regs.width.toNat ∧
    65535 < (at' { Regs.reset with height := 65536 }).regs.height.toNat := by decide
theorem test_witness_d2xy :
    (0xFFFFFFFF#32).toNat < (65536#17).toNat * (65536#17).toNat ∧ (0#32).toNat < (1#17).toNat * (1#17).toNat ∧
    (1#17).toNat * (1#17).toNat ≤ (1#32).toNat := by decide
theorem test_witness_xy2d :
    (LegalOrder (65536#17).toNat ∧ ((0xFFFFFFFF#32).extractLsb' 0 16).toNat < (65536#17).toNat ∧
      ((0xFFFFFFFF#32).extractLsb' 16 16).toNat < (65536#17).toNat) ∧
    (1#17).toNat ≤ ((0x00000001#32).extractLsb' 0 16).toNat ∧ (1#17).toNat ≤ ((0x00010000#32).extractLsb' 16 16).toNat :=
  ⟨⟨⟨16, by decide, by decide⟩, by decide, by decide⟩, by decide, by decide⟩
theorem test_witness_curve_quarters : 15 < 16 ∧ 0xFFFFFFFF < 2 ^ (15 + 1) * 2 ^ (15 + 1) ∧ 0 < 2 ^ (0 + 1) * 2 ^ (0 + 1) := by
  decide
theorem test_witness_curve_orders : 16 ≤ 16 ∧ 1 ≤ 16 ∧ 16 % 2 = 0 ∧ 1 % 2 = 1 ∧ 65535 < 2 ^ 16 ∧
    0xFFFFFFFE + 1 < 2 ^ 16 * 2 ^ 16 ∧ 0 + 1 < 2 ^ 1 * 2 ^ 1 := by decide
theorem test_witness_round_trip :
    LegalOrder (at' Regs.reset).regs.order.toNat ∧
    (at' Regs.reset).regs.dist.toNat < (at' Regs.reset).regs.order.toNat * (at' Regs.reset).regs.order.toNat ∧
    ((at' Regs.reset).regs.coord.extractLsb' 0 16).toNat < (at' Regs.reset).regs.order.toNat ∧
    ((at' Regs.reset).regs.coord.extractLsb' 16 16).toNat < (at' Regs.reset).regs.order.toNat :=
  ⟨⟨0, by decide, by decide⟩, by decide, by decide, by decide⟩
theorem test_witness_in_bounds : ∃ t, exec .setdim (at' { Regs.reset with width := 3, height := 2 }) = .next t ∧
    t.regs.errLast = 0 ∧ 15 < t.regs.order.toNat * t.regs.order.toNat := ⟨_, rfl, by decide, by decide +kernel⟩
/-- Both outcomes of rounding occur: a third of a unit is finite, 2^1024 is not. -/
theorem test_witness_rounding : F64.round true 1 3 = .fin true 0 ∧ F64.round false (pow2 2098) 1 = .inf false := by
  decide +kernel
theorem test_witness_float_patterns : (f64bits 0x7FF8000000000000#64).isNaN = true ∧
    (f64bits 0xFFFFFFFFFFFFFFFF#64).isNaN = true ∧ (f64bits 0x7FF0000000000000#64).isNaN = false ∧
    (f64bits 0x0000000000000001#64).isNaN = false := by decide +kernel
theorem test_witness_clamp :
    F64.lt (f64bits 0xBFF0000000000001#64) (f64bits 0xBFF0000000000000#64) = true ∧
    F64.lt (f64bits 0x3FF0000000000000#64) (f64bits 0x3FF0000000000001#64) = true ∧
    [0xBFF0000000000000#64, 0x3FF0000000000000#64, 0x8000000000000000#64, 0x7FF8000000000000#64].all (fun u =>
      !F64.lt (f64bits u) (f64bits 0xBFF0000000000000#64) && !F64.lt (f64bits 0x3FF0000000000000#64) (f64bits u)) = true := by
  decide +kernel
theorem test_witness_quantizers :
    (f64bits (at' { Regs.reset with f := 0x7FF8000000000000 }).regs.f).isNaN = true ∧
    (f64bits (at' Regs.reset).regs.f).isNaN = false ∧
    (f64bits (at' { Regs.reset with f := 0x7FF0000000000000 }).regs.f).isNaN = false := by decide +kernel
theorem test_witness_saturate :
    F64.le (f64bits 0xBFF0000000000000#64) (f64bits 0xBFF0000000000000#64) = true ∧
    F64.le (f64bits 0xFFF0000000000000#64) (f64bits 0xBFF0000000000000#64) = true ∧
    F64.le (f64bits 0x3FF0000000000000#64) (f64bits 0x3FF0000000000000#64) = true ∧
    F64.le (f64bits 0x3FF0000000000000#64) (f64bits 0x7FF0000000000000#64) = true := by decide +kernel
theorem test_witness_premul :
    ((∃ n, f64bits 0x7FF0000000000000#64 = .inf n) ∧ (0#8 : Byte) = 0) ∧
    ¬ ((f64bits 0x7FF0000000000000#64).isNaN = true ∨ ((∃ n, f64bits 0x7FF0000000000000#64 = .inf n) ∧ (1#8 : Byte) = 0)) ∧
    ¬ ((f64bits 0x3FE0000000000000#64).isNaN = true ∨ ((∃ n, f64bits 0x3FE0000000000000#64 = .inf n) ∧ (0#8 : Byte) = 0)) := by
  refine ⟨⟨⟨false, by decide +kernel⟩, rfl⟩, ?_, ?_⟩
  · rintro (h | ⟨-, h⟩)
    · exact absurd h (by decide +kernel)
    · exact absurd h (by decide)
  · rintro (h | ⟨⟨n, h⟩, -⟩)
    · exact absurd h (by decide +kernel)
    · cases n <;> exact absurd h (by decide +kernel)
theorem test_witness_unpremul :
    (0x0000FFFF#32).extractLsb' 16 16 = 0 ∧
    ((0xFFFFFFFF#32).extractLsb' 16 16 ≠ 0 ∧ (0xFFFFFFFF#32).extractLsb' 16 16 ≤ (0xFFFFFFFF#32).extractLsb' 0 16) ∧
    ((0x0001FFFF#32).extractLsb' 16 16 ≠ 0 ∧ (0x0001FFFF#32).extractLsb' 16 16 ≤ (0x0001FFFF#32).extractLsb' 0 16) ∧
    (0x00010000#32).extractLsb' 0 16 < (0x00010000#32).extractLsb' 16 16 ∧
    (0xFFFFFFFE#32).extractLsb' 0 16 < (0xFFFFFFFE#32).extractLsb' 16 16 := by decide
theorem test_witness_native_alpha : ((0xFFFF0000#32).extractLsb' 16 16).toNat = 257 * 255 ∧
    ((0x00000000#32).extractLsb' 16 16).toNat = 257 * 0 := by decide
theorem test_witness_alpha_zero : (at' Regs.reset).regs.native.extractLsb' 16 16 = 0 ∧ (at' Regs.reset).regs.abyte = 0 ∧
    f64bits (at' Regs.reset).regs.f = .fin false 0 ∧ f64bits 0xFFEFFFFFFFFFFFFF#64 = .fin true ((pow2 53 - 1) * pow2 2045) := by
  decide +kernel
/-- A command, its next state and a register outside its row; a bit it leaves; a NaN already met. -/
theorem test_witness_frames : (∃ t, exec .qa (at' { Regs.reset with nan := true }) = .next t) ∧
    RegName.dist ∉ writes .qa ∧ Instr.qa ≠ .bounds ∧ setsNan .qa = true ∧ setsNan .nalpha = false :=
  ⟨⟨_, rfl⟩, by decide, by decide, rfl, rfl⟩
/-- Two states that differ, agree on what `SETN` reads, and both complete. -/
theorem test_witness_reads :
    (at' Regs.reset).platform = (at' { Regs.reset with dist := 1 }).platform ∧ at' Regs.reset ≠ at' { Regs.reset with dist := 1 } ∧
    (∀ r ∈ reads .setn, readReg (at' Regs.reset).regs r = readReg (at' { Regs.reset with dist := 1 }).regs r) ∧
    (∃ t t', exec .setn (at' Regs.reset) = .next t ∧ exec .setn (at' { Regs.reset with dist := 1 }) = .next t' ∧
      t.regs.errLast = 0 ∧ RegName.order ∈ writes .setn) :=
  ⟨rfl, by decide, by decide, _, _, rfl, rfl, by decide, by decide⟩
/-- Every error code is raised by some word in some state (R101). -/
theorem test_witness_error_codes :
    ([(0x07, Regs.reset, 1), (0x02, { Regs.reset with nreq := 0 }, 2), (0x03, { Regs.reset with width := 65536 }, 3),
      (0x04, { Regs.reset with dist := 1 }, 4), (0x05, { Regs.reset with coord := 1 }, 5), (0x00, Regs.reset, 0)] :
        List (Nat × Regs × BitVec 4)).all (fun x => runs x.1 x.2.1 (fun r => r.errLast == x.2.2)) = true := by decide +kernel
theorem test_witness_no_failure :
    (∀ w, w ∈ [0x00000000#32, 0x00000010#32] → w ≠ encode .clear) ∧
    (outcomes [0x00000000#32, 0x00000010#32] (at' Regs.reset)).2.regs.errFirst = 0 := by
  refine ⟨fun w hw => ?_, by decide +kernel⟩
  simp only [List.mem_cons, List.not_mem_nil, or_false] at hw
  obtain rfl | rfl := hw <;> decide
theorem test_witness_window_registers : (at' Regs.reset).inReset = false ∧
    (∀ r ∈ [RegName.nreq, .native, .qbyte, .flo, .fhi], readWrite r = true) ∧
    (RegName.nreq.offset - 1 < RegName.nreq.offset ∧ RegName.nreq.offset + 4 ≤ RegName.nreq.offset + 4) := by decide
theorem test_witness_read_offsets : 0x00 < 64 ∧ 0x00 % 4 = 0 ∧ 0x3C < 64 ∧ 0x3C % 4 = 0 := by decide
/-- Bad accesses at both ends of the window, on both kinds of platform (R39). -/
theorem test_witness_bad_access :
    (∀ a ∈ [Access.read 0x00 2, .write 0x3F 4 0], (at' Regs.reset).platform.base ≤ a.addr ∧
      a.addr < (at' Regs.reset).platform.base + 64 ∧ (a.bytes ≠ 4 ∨ a.addr % 4 ≠ 0)) ∧
    (at' Regs.reset).platform.busErrorOnBadAccess = false ∧
    (State.resetOn { Config.Platform.default with busErrorOnBadAccess := true }).platform.busErrorOnBadAccess = true := by decide
theorem test_witness_unserved :
    (resetLine true (at' Regs.reset)).inReset = true ∧ (at' Regs.reset).platform.base + 64 ≤ (Access.read 0x40 4).addr ∧
    (Access.read 0x3F 4).addr < (State.resetOn { Config.Platform.default with baseIndex := 1 }).platform.base := by decide
theorem test_witness_step_command :
    let s := { at' Regs.reset with pending := [.access (.write 0x08 4 0x00000002#32)] }
    s.inReset = false ∧ s.pending = .access (.write (s.platform.base + 8) 4 0x00000002#32) :: [] ∧
    decode 0x00000002#32 = .ok .setn ∧ Instr.setn.wellFormed = true ∧ ∃ t, step s = .next t :=
  ⟨rfl, rfl, by decide, rfl, _, rfl⟩
theorem test_witness_waits : (at' Regs.reset).pending = [] ∧ step (at' Regs.reset) = .next (at' Regs.reset) := ⟨rfl, rfl⟩
theorem test_witness_reset_events :
    { at' Regs.reset with pending := [.resetLine true, .resetLine false] }.pending = .resetLine true :: .resetLine false :: [] ∧
    { at' Regs.reset with pending := [.powerCycle] }.pending = .powerCycle :: [] := ⟨rfl, rfl⟩
/-- A state that is not the reset state, meets the invariant, and steps. -/
theorem test_witness_invariant :
    let s := { at' { Regs.reset with order := 65536, errLast := 5, errFirst := 1 } with pending := [.powerCycle] }
    Safety.Inv s ∧ ∃ t, step s = .next t :=
  ⟨⟨⟨16, by decide, by decide⟩, by decide, by decide⟩, _, rfl⟩
/-- Steps that change `ORDER`: a command, a release of reset, a power cycle. -/
theorem test_witness_order_changes :
    (∃ t, step { at' { Regs.reset with nreq := 4 } with pending := [.access (.write 0x08 4 2)] } = .next t ∧ t.regs.order ≠ 1) ∧
    (∃ t, step { at' { Regs.reset with order := 4 } with inReset := true, pending := [.resetLine false] } = .next t ∧
      t.regs.order ≠ 4) ∧
    (∃ t, step { at' { Regs.reset with order := 4 } with pending := [.powerCycle] } = .next t ∧ t.regs.order ≠ 4) :=
  ⟨⟨_, rfl, by decide +kernel⟩, ⟨_, rfl, by decide⟩, ⟨_, rfl, by decide⟩⟩
/-- Steps that clear a sticky field: `CLEAR`, and a power cycle. -/
theorem test_witness_sticky_cleared :
    (∃ t, step { at' { Regs.reset with errFirst := 2 } with pending := [.access (.write 0x08 4 1)] } = .next t ∧
      t.regs.errFirst = 0) ∧
    (∃ t, step { at' { Regs.reset with nan := true } with pending := [.powerCycle] } = .next t ∧ t.regs.nan = false) :=
  ⟨⟨_, rfl, by decide⟩, ⟨_, rfl, by decide⟩⟩

end Sys2Proof.Tests
end

section
/-!
PROOFS. Rounding to binary64 (R10): the last place, division to the nearest integer, and from these that the rounded value is the
nearest representable one, ties to even (O17).
-/

namespace Sys2Proof.Machine

open Sys2Proof.Claims

/-- A value below `2^53` units has its last place at the unit: the subnormals and the first normal binade. -/
theorem lastPlace_of_lt {c : Nat} (h : c < 2 ^ 53) : lastPlace c = 0 := by
  have hlog : Nat.log2 c < 53 := by
    rcases Nat.eq_zero_or_pos c with rfl | hc
    · decide
    · exact (Nat.log2_lt (by omega)).2 h
  unfold lastPlace
  omega

/-- A 53-bit significand times `2^k` has its last place at `k`. -/
theorem lastPlace_mul_two_pow {c : Nat} (hlo : 2 ^ 52 ≤ c) (hhi : c < 2 ^ 53) (k : Nat) : lastPlace (c * 2 ^ k) = k := by
  have hlog : Nat.log2 (c * 2 ^ k) = 52 + k := by
    have hpos : 0 < 2 ^ k := Nat.two_pow_pos k
    rw [Nat.log2_eq_iff (Nat.mul_ne_zero (by omega) hpos.ne'), pow_add, show 52 + k + 1 = 53 + k by omega, pow_add]
    exact ⟨Nat.mul_le_mul_right _ hlo, Nat.mul_lt_mul_of_pos_right hhi hpos⟩
  unfold lastPlace
  omega

/-- A value is less than `2^53` of its last places. -/
theorem lt_two_pow_lastPlace (x : Nat) : x < 2 ^ (53 + lastPlace x) :=
  Nat.lt_log2_self.trans_le (Nat.pow_le_pow_right (by decide) (by unfold lastPlace; omega))

/-- Where the last place lies above the unit, the value is at least `2^52` of them. -/
theorem two_pow_lastPlace_le {x : Nat} (h : 0 < lastPlace x) : 2 ^ (52 + lastPlace x) ≤ x := by
  have hlog : 52 + lastPlace x = Nat.log2 x := by unfold lastPlace at h ⊢; omega
  rw [hlog]
  refine Nat.log2_self_le ?_
  rintro rfl
  exact absurd h (by decide)

/-- A larger multiple of `den` is larger by at least `den`. -/
theorem mul_add_le_mul_of_lt {q n : Nat} (den : Nat) (h : q < n) : q * den + den ≤ n * den := by
  rw [← Nat.add_one_mul]
  exact Nat.mul_le_mul_right den h

/-- An integer at most the exact quotient is at most the rounded one. -/
theorem le_divNearestEven {k num den : Nat} (hden : 0 < den) (h : k * den ≤ num) : k ≤ divNearestEven num den := by
  obtain ⟨-, hup, -⟩ := divNearestEven_spec num den hden
  by_contra hlt
  have hstep := mul_add_le_mul_of_lt den (not_le.1 hlt)
  omega

/-- An integer at least the exact quotient is at least the rounded one. -/
theorem divNearestEven_le {k num den : Nat} (hden : 0 < den) (h : num ≤ k * den) : divNearestEven num den ≤ k := by
  obtain ⟨hdown, -, -⟩ := divNearestEven_spec num den hden
  by_contra hlt
  have hstep := mul_add_le_mul_of_lt den (not_le.1 hlt)
  omega

/-- An even integer is reached from half below it on: there the tie goes to it. -/
theorem even_le_divNearestEven_iff {k num den : Nat} (hden : 0 < den) (heven : k % 2 = 0) :
    k ≤ divNearestEven num den ↔ 2 * (k * den) ≤ 2 * num + den := by
  obtain ⟨hdown, hup, htie⟩ := divNearestEven_spec num den hden
  constructor
  · intro h
    have hmul := Nat.mul_le_mul_right den h
    omega
  · intro h
    by_contra hlt
    have hstep := mul_add_le_mul_of_lt den (not_le.1 hlt)
    have hqeven : divNearestEven num den % 2 = 0 := htie (by omega)
    have hgap : divNearestEven num den + 1 < k := by omega
    have hstep' := mul_add_le_mul_of_lt den hgap
    rw [Nat.add_one_mul] at hstep'
    omega

/-- The error in natural numbers: one of the two differences is 0. -/
theorem error_eq (num den m : Nat) : error num den m = (num - m * den) + (m * den - num) := by
  unfold error
  rw [← Nat.cast_mul]
  omega

/-- The error of `n` last places is that of the integer `n` for the quotient counted in last places. -/
theorem error_mul_ulp (num den n ulp : Nat) : error num den (n * ulp) = error num (den * ulp) n := by
  rw [error_eq, error_eq, mul_assoc, mul_comm ulp]

/-- No integer is nearer to the exact quotient than the rounded one, which is even where another is as near. -/
theorem divNearestEven_nearest {num den : Nat} (hden : 0 < den) (n : Nat) :
    error num den (divNearestEven num den) ≤ error num den n ∧
    (error num den (divNearestEven num den) = error num den n → divNearestEven num den ≠ n → divNearestEven num den % 2 = 0) := by
  obtain ⟨hdown, hup, htie⟩ := divNearestEven_spec num den hden
  rw [error_eq, error_eq]
  rcases Nat.lt_trichotomy (divNearestEven num den) n with h | rfl | h
  · have hstep := mul_add_le_mul_of_lt den h
    exact ⟨by omega, fun _ _ => htie (by omega)⟩
  · exact ⟨le_rfl, fun _ hne => absurd rfl hne⟩
  · have hstep := mul_add_le_mul_of_lt den h
    exact ⟨by omega, fun _ _ => htie (by omega)⟩

/-- The last place `F64.round` rounds `num / den` to (`F64.round_eq`). -/
def roundPlace (num den : Nat) : Nat := lastPlace (num / den)

/-- The exact value in last places, rounded: the significand of the result, or `2^53` where it carries over. -/
def roundSignificand (num den : Nat) : Nat := divNearestEven num (den * 2 ^ roundPlace num den)

/-- The units of the rounded value, before the check for overflow. -/
def roundUnits (num den : Nat) : Nat := roundSignificand num den * 2 ^ roundPlace num den

/-- `F64.round` in the terms above. -/
theorem F64.round_eq (neg : Bool) (num den : Nat) :
    F64.round neg num den = if roundUnits num den < 2 ^ 2098 then .fin neg (roundUnits num den) else .inf neg := by
  unfold F64.round
  dsimp only
  rw [pow2_eq, unitsLimit_eq]
  rfl

section
variable {num den : Nat}

/-- The exact value is less than `2^53` of the last places it is rounded to. -/
theorem lt_two_pow_roundPlace (hden : 0 < den) : num < 2 ^ 53 * (den * 2 ^ roundPlace num den) := by
  have h := (Nat.div_lt_iff_lt_mul hden).1 (lt_two_pow_lastPlace (num / den))
  calc num < 2 ^ (53 + lastPlace (num / den)) * den := h
    _ = 2 ^ 53 * (den * 2 ^ roundPlace num den) := by rw [pow_add, roundPlace]; ring

/-- Where that last place lies above the unit, the exact value is at least `2^52` of them. -/
theorem two_pow_roundPlace_le (hden : 0 < den) (h : 0 < roundPlace num den) : 2 ^ 52 * (den * 2 ^ roundPlace num den) ≤ num := by
  have h := (Nat.le_div_iff_mul_le hden).1 (two_pow_lastPlace_le h)
  calc 2 ^ 52 * (den * 2 ^ roundPlace num den) = 2 ^ (52 + lastPlace (num / den)) * den := by rw [pow_add, roundPlace]; ring
    _ ≤ num := h

/-- The rounded significand has 53 bits, or carries over to `2^53`. -/
theorem roundSignificand_le (hden : 0 < den) : roundSignificand num den ≤ 2 ^ 53 :=
  divNearestEven_le (Nat.mul_pos hden (Nat.two_pow_pos _)) (lt_two_pow_roundPlace hden).le

theorem le_roundSignificand (hden : 0 < den) (h : 0 < roundPlace num den) : 2 ^ 52 ≤ roundSignificand num den :=
  le_divNearestEven (Nat.mul_pos hden (Nat.two_pow_pos _)) (two_pow_roundPlace_le hden h)

/-- Among the multiples of the last place the rounded value is the nearest, ties to even. -/
theorem roundUnits_nearest_multiple (hden : 0 < den) (n : Nat) :
    error num den (roundUnits num den) ≤ error num den (n * 2 ^ roundPlace num den) ∧
    (error num den (roundUnits num den) = error num den (n * 2 ^ roundPlace num den) → roundSignificand num den ≠ n →
      roundSignificand num den % 2 = 0) := by
  rw [roundUnits, error_mul_ulp, error_mul_ulp]
  exact divNearestEven_nearest (Nat.mul_pos hden (Nat.two_pow_pos _)) n

/-- Of two values not above the exact one, the lower has the larger error. -/
theorem error_lt_of_lt_of_le {m m' : Nat} (hden : 0 < den) (hlt : m' < m) (hle : m * den ≤ num) :
    error num den m < error num den m' := by
  have h : m' * den < m * den := Nat.mul_lt_mul_of_pos_right hlt hden
  rw [error_eq, error_eq]
  omega

/-- Among all representable values the rounded one is the nearest, ties to even. A representable value that is no multiple of the last
place lies below the binade of the exact value, so the start of that binade is nearer than it. -/
theorem roundUnits_nearest (hden : 0 < den) {m' : Nat} (hm : Representable m') :
    error num den (roundUnits num den) ≤ error num den m' ∧
    (error num den (roundUnits num den) = error num den m' → roundUnits num den ≠ m' → roundSignificand num den % 2 = 0) := by
  obtain ⟨c, k, hc, -, rfl⟩ := hm
  rcases Nat.lt_or_ge k (roundPlace num den) with hk | hk
  · have hplace : 0 < roundPlace num den := by omega
    have hbelow : c * 2 ^ k < 2 ^ 52 * 2 ^ roundPlace num den :=
      calc c * 2 ^ k < 2 ^ 53 * 2 ^ k := Nat.mul_lt_mul_of_pos_right hc (Nat.two_pow_pos k)
        _ = 2 ^ 52 * 2 ^ (k + 1) := by ring
        _ ≤ 2 ^ 52 * 2 ^ roundPlace num den := Nat.mul_le_mul_left _ (Nat.pow_le_pow_right (by decide) hk)
    have hle : 2 ^ 52 * 2 ^ roundPlace num den * den ≤ num := by
      rw [mul_assoc, mul_comm _ den]
      exact two_pow_roundPlace_le hden hplace
    have hnear := (roundUnits_nearest_multiple (num := num) hden (2 ^ 52)).1
    have hfar := error_lt_of_lt_of_le hden hbelow hle
    exact ⟨by omega, fun he => by omega⟩
  · have hmul : c * 2 ^ k = c * 2 ^ (k - roundPlace num den) * 2 ^ roundPlace num den := by
      rw [mul_assoc, ← pow_add, Nat.sub_add_cancel hk]
    rw [hmul]
    obtain ⟨hle, htie⟩ := roundUnits_nearest_multiple (num := num) hden (c * 2 ^ (k - roundPlace num den))
    exact ⟨hle, fun he hne => htie he fun heq => hne (by rw [roundUnits, heq])⟩

/-- An even `roundSignificand` is an even significand of the result, also where it carries over into the next binade. -/
theorem roundUnits_significand_even (hden : 0 < den) (h : roundSignificand num den % 2 = 0) :
    roundUnits num den / 2 ^ lastPlace (roundUnits num den) % 2 = 0 := by
  have hpos := Nat.two_pow_pos
  rcases (roundSignificand_le (num := num) hden).eq_or_lt with htop | hlt
  · have hunits : roundUnits num den = 2 ^ 52 * 2 ^ (roundPlace num den + 1) := by rw [roundUnits, htop]; ring
    rw [hunits, lastPlace_mul_two_pow le_rfl (by decide), Nat.mul_div_cancel _ (hpos _)]
    decide
  · rcases Nat.eq_zero_or_pos (roundPlace num den) with hzero | hplace
    · rw [roundUnits, hzero, pow_zero, mul_one, lastPlace_of_lt hlt, pow_zero, Nat.div_one, h]
    · rw [roundUnits, lastPlace_mul_two_pow (le_roundSignificand hden hplace) hlt, Nat.mul_div_cancel _ (hpos _), h]

/-- Below the overflow limit the rounded value is representable. -/
theorem roundUnits_representable (hden : 0 < den) (h : roundUnits num den < 2 ^ 2098) : Representable (roundUnits num den) := by
  have hexp : ∀ k, 2 ^ 52 * 2 ^ k ≤ roundUnits num den → k ≤ 2045 := by
    intro k hk
    rw [← pow_add] at hk
    have := (Nat.pow_lt_pow_iff_right (by decide : 1 < 2)).1 (hk.trans_lt h)
    omega
  rcases (roundSignificand_le (num := num) hden).eq_or_lt with htop | hlt
  · have hunits : roundUnits num den = 2 ^ 52 * 2 ^ (roundPlace num den + 1) := by rw [roundUnits, htop]; ring
    exact ⟨2 ^ 52, roundPlace num den + 1, by decide, hexp _ hunits.ge, hunits⟩
  · refine ⟨roundSignificand num den, roundPlace num den, hlt, ?_, rfl⟩
    rcases Nat.eq_zero_or_pos (roundPlace num den) with hzero | hplace
    · omega
    · exact hexp _ (Nat.mul_le_mul_right _ (le_roundSignificand hden hplace))

/-- Overflow, for a format whose largest last place is `k + 1`: the rounded value stays below the limit `2^(k + 54)` exactly where the
exact value is more than half such a last place below the limit. -/
theorem roundUnits_lt_iff (hden : 0 < den) (k : Nat) :
    roundUnits num den < 2 ^ (k + 54) ↔ num < (2 ^ 54 - 1) * 2 ^ k * den := by
  rcases Nat.lt_trichotomy (roundPlace num den) (k + 1) with hlow | hplace | hhigh
  · have hpow : 2 ^ roundPlace num den ≤ 2 ^ k := Nat.pow_le_pow_right (by decide) (by omega)
    have hunits : roundUnits num den ≤ 2 ^ 53 * 2 ^ k := Nat.mul_le_mul (roundSignificand_le hden) hpow
    have hnum : num < 2 ^ 53 * (den * 2 ^ k) :=
      (lt_two_pow_roundPlace hden).trans_le (Nat.mul_le_mul_left _ (Nat.mul_le_mul_left _ hpow))
    have hpos := Nat.two_pow_pos k
    rw [mul_assoc, mul_comm _ den, pow_add]
    exact ⟨fun _ => by omega, fun _ => by omega⟩
  · have heven := even_le_divNearestEven_iff (num := num) (Nat.mul_pos hden (Nat.two_pow_pos (k + 1))) (k := 2 ^ 53) (by decide)
    have hunits : roundUnits num den < 2 ^ (k + 54) ↔ roundSignificand num den < 2 ^ 53 := by
      rw [roundUnits, hplace, show 2 ^ (k + 54) = 2 ^ 53 * 2 ^ (k + 1) by ring]
      exact Nat.mul_lt_mul_right (Nat.two_pow_pos _)
    rw [hunits, roundSignificand, hplace, mul_assoc, mul_comm _ den]
    have hdouble : den * 2 ^ (k + 1) = 2 * (den * 2 ^ k) := by ring
    rw [hdouble] at heven ⊢
    omega
  · have hunits : 2 ^ 52 * 2 ^ (k + 2) ≤ roundUnits num den :=
      Nat.mul_le_mul (le_roundSignificand hden (by omega)) (Nat.pow_le_pow_right (by decide) hhigh)
    have hnum : 2 ^ 52 * (den * 2 ^ (k + 2)) ≤ num :=
      (Nat.mul_le_mul_left _ (Nat.mul_le_mul_left _ (Nat.pow_le_pow_right (by decide) hhigh))).trans (two_pow_roundPlace_le hden (by omega))
    rw [pow_add, ← mul_assoc den] at hnum
    rw [pow_add] at hunits
    rw [mul_assoc, mul_comm _ den, pow_add]
    exact ⟨fun _ => by omega, fun _ => by omega⟩

/-- Rounding answers the rounded units below the overflow threshold, and an infinity from it on. -/
theorem F64.round_fin_or_inf (hden : 0 < den) (neg : Bool) :
    (num < (2 ^ 54 - 1) * 2 ^ 2044 * den ∧ roundUnits num den < 2 ^ 2098 ∧ F64.round neg num den = .fin neg (roundUnits num den)) ∨
    ((2 ^ 54 - 1) * 2 ^ 2044 * den ≤ num ∧ F64.round neg num den = .inf neg) := by
  have hlimit : roundUnits num den < 2 ^ 2098 ↔ num < (2 ^ 54 - 1) * 2 ^ 2044 * den := by
    rw [show 2098 = 2044 + 54 from rfl]
    exact roundUnits_lt_iff hden 2044
  rw [F64.round_eq]
  by_cases h : roundUnits num den < 2 ^ 2098
  · exact .inl ⟨hlimit.1 h, h, if_pos h⟩
  · exact .inr ⟨not_lt.1 (mt hlimit.2 h), if_neg h⟩

end

/-- Settles O17: the rounded value is nearest among the multiples of the last place by the law of `divNearestEven`, and hence among
all representable values. -/
theorem roundingIsToNearestEven : Obligations.RoundingIsToNearestEven := by
  unfold Obligations.RoundingIsToNearestEven
  intro neg num den hden
  rcases F64.round_fin_or_inf (num := num) hden neg with ⟨hnum, hunits, hround⟩ | ⟨hnum, hround⟩
  · rw [hround]
    refine ⟨rfl, roundUnits_representable hden hunits, hnum, fun m' hm => ?_⟩
    obtain ⟨hle, htie⟩ := roundUnits_nearest (num := num) hden hm
    exact ⟨hle, fun he hne => roundUnits_significand_even hden (htie he hne)⟩
  · rw [hround]
    exact ⟨rfl, hnum⟩

end Sys2Proof.Machine
end

section
/-!
PROOFS. The layout of a binary64 pattern (R10): the value of each kind of pattern, and the pattern of each kind of value (O18).
-/

namespace Sys2Proof.Machine

/-- The biased exponent of a pattern (R10: bits 62:52). -/
def exponentField (u : FloatBits) : Nat := (u.extractLsb' 52 11).toNat

/-- The fraction of a pattern (R10: bits 51:0). -/
def fractionField (u : FloatBits) : Nat := (u.extractLsb' 0 52).toNat

theorem fractionField_lt (u : FloatBits) : fractionField u < 2 ^ 52 := (u.extractLsb' 0 52).isLt

theorem exponentField_eq_max_iff (u : FloatBits) : u.extractLsb' 52 11 = 0x7FF#11 ↔ exponentField u = 2047 :=
  BitVec.toNat_inj.symm

theorem fractionField_eq_zero_iff (u : FloatBits) : u.extractLsb' 0 52 = 0 ↔ fractionField u = 0 :=
  BitVec.toNat_inj.symm

/-- `f64bits` on the fields of the pattern. -/
theorem f64bits_eq (u : FloatBits) :
    f64bits u =
      if exponentField u = 2047 then if fractionField u = 0 then .inf (u.getLsbD 63) else .nan
      else if exponentField u = 0 then .fin (u.getLsbD 63) (fractionField u)
      else .fin (u.getLsbD 63) ((2 ^ 52 + fractionField u) * 2 ^ (exponentField u - 1)) := by
  simp only [f64bits, pow2_eq]
  rfl

/-- The four kinds of pattern: an infinity, a NaN, a zero or subnormal value, a normal value. -/
theorem f64bits_cases (u : FloatBits) :
    (exponentField u = 2047 ∧ fractionField u = 0 ∧ f64bits u = .inf (u.getLsbD 63)) ∨
    (exponentField u = 2047 ∧ fractionField u ≠ 0 ∧ f64bits u = .nan) ∨
    (exponentField u = 0 ∧ f64bits u = .fin (u.getLsbD 63) (fractionField u)) ∨
    (exponentField u ≠ 2047 ∧ 0 < exponentField u ∧
      f64bits u = .fin (u.getLsbD 63) ((2 ^ 52 + fractionField u) * 2 ^ (exponentField u - 1))) := by
  rw [f64bits_eq]
  by_cases hmax : exponentField u = 2047
  · by_cases hf : fractionField u = 0
    · exact .inl ⟨hmax, hf, by rw [if_pos hmax, if_pos hf]⟩
    · exact .inr (.inl ⟨hmax, hf, by rw [if_pos hmax, if_neg hf]⟩)
  · by_cases hzero : exponentField u = 0
    · exact .inr (.inr (.inl ⟨hzero, by rw [if_neg hmax, if_pos hzero]⟩))
    · exact .inr (.inr (.inr ⟨hmax, Nat.pos_of_ne_zero hzero, by rw [if_neg hmax, if_neg hzero]⟩))

@[simp] theorem F64.isNaN_nan : F64.nan.isNaN = true := rfl
@[simp] theorem F64.isNaN_inf (neg : Bool) : (F64.inf neg).isNaN = false := rfl
@[simp] theorem F64.isNaN_fin (neg : Bool) (m : Nat) : (F64.fin neg m).isNaN = false := rfl

/-- The pattern of an infinity: all exponent bits set, no fraction. -/
theorem F64.bits_inf (neg : Bool) : (F64.inf neg).bits = signedBits neg (2047 * 2 ^ 52) := by
  simp only [F64.bits, pow2_eq]

/-- The pattern of a value below `2^53` units is its number of units. -/
theorem F64.bits_subnormal (neg : Bool) {c : Nat} (h : c < 2 ^ 53) : (F64.fin neg c).bits = signedBits neg c := by
  simp [F64.bits, lastPlace_of_lt h, pow2_eq]

/-- The pattern of a normal value: its significand, whose top bit adds one to the exponent field `k`. -/
theorem F64.bits_normal (neg : Bool) {c : Nat} (hlo : 2 ^ 52 ≤ c) (hhi : c < 2 ^ 53) (k : Nat) :
    (F64.fin neg (c * 2 ^ k)).bits = signedBits neg (c + k * 2 ^ 52) := by
  simp only [F64.bits, lastPlace_mul_two_pow hlo hhi, pow2_eq, Nat.mul_div_cancel _ (Nat.two_pow_pos k)]

/-- A pattern is put together from its sign, exponent and fraction. -/
theorem signedBits_fields (u : FloatBits) : signedBits (u.getLsbD 63) (exponentField u * 2 ^ 52 + fractionField u) = u := by
  have hsign : BitVec.ofBool (u.getLsbD 63) = u.extractLsb' 63 1 := by
    apply BitVec.eq_of_getLsbD_eq
    intro i hi
    obtain rfl : i = 0 := by omega
    simp
  have hmagnitude : BitVec.ofNat 63 (exponentField u * 2 ^ 52 + fractionField u) = u.extractLsb' 0 63 := by
    apply BitVec.eq_of_toNat_eq
    simp [exponentField, fractionField, BitVec.extractLsb'_toNat, Nat.shiftRight_eq_div_pow]
    omega
  rw [signedBits, hsign, hmagnitude]
  exact append_extract 1 63 u

/-- The NaN patterns of R10. -/
theorem f64bits_isNaN_iff (u : FloatBits) :
    (f64bits u).isNaN = true ↔ u.extractLsb' 52 11 = 0x7FF#11 ∧ u.extractLsb' 0 52 ≠ 0 := by
  rw [Ne, exponentField_eq_max_iff, fractionField_eq_zero_iff]
  obtain ⟨he, hf, hu⟩ | ⟨he, hf, hu⟩ | ⟨he, hu⟩ | ⟨he, -, hu⟩ := f64bits_cases u
  · simp [hu, hf]
  · simp [hu, he, hf]
  · simp [hu, he]
  · simp [hu, he]

/-- A pattern that is no NaN is the pattern of its value. -/
theorem bits_f64bits {u : FloatBits} (h : (f64bits u).isNaN = false) : (f64bits u).bits = u := by
  have hf52 := fractionField_lt u
  have hfields := signedBits_fields u
  obtain ⟨he, hf, hu⟩ | ⟨-, -, hu⟩ | ⟨he, hu⟩ | ⟨-, hpos, hu⟩ := f64bits_cases u
  · rw [hu, F64.bits_inf]
    rwa [he, hf, Nat.add_zero] at hfields
  · simp [hu] at h
  · rw [hu, F64.bits_subnormal _ (by omega)]
    rwa [he, Nat.zero_mul, Nat.zero_add] at hfields
  · rw [hu, F64.bits_normal _ (by omega) (by omega)]
    convert hfields using 2
    omega

/-- Settles O18, by the four kinds of pattern. -/
theorem floatPatternsRoundTrip : Obligations.FloatPatternsRoundTrip :=
  fun u => ⟨f64bits_isNaN_iff u, bits_f64bits⟩

end Sys2Proof.Machine
end

section
/-!
PROOFS. How a command ends, said once for all commands (R102, R104), and from it the invariant of the registers at reset and over
every step (O57, O58), and the first error over any sequence of command words (O40).
-/

namespace Sys2Proof.Machine

open Sys2Proof.Claims Sys2Proof.Safety

/-! ### How a command ends -/

/-- R73: the orders that `SETN` accepts are the legal ones. -/
theorem legalOrder_of_setn_accepts {v : Nat} (h : ¬ (!isPow2 v || decide (Config.orderMax < v)) = true) : LegalOrder v := by
  simp only [Bool.or_eq_true, Bool.not_eq_true', decide_eq_true_eq, not_or, Bool.not_eq_false, not_lt] at h
  obtain ⟨hpow, hmax⟩ := h
  obtain ⟨k, rfl⟩ := (isPow2_iff v).1 hpow
  exact ⟨k, (Nat.pow_le_pow_iff_right (by decide)).1 (show 2 ^ k ≤ 2 ^ 16 from hmax), rfl⟩

/-- R68: the order that `SETDIM` derives is legal. -/
theorem legalOrder_npot (m : Nat) : LegalOrder (npot m) := by
  obtain ⟨k, hk, -, hle⟩ := npotLoop_isPow2 16 0 m
  exact ⟨k, by omega, hk⟩

/-- R21: `ORDER` has room for every legal order. -/
theorem legalOrder_ofNat {v : Nat} (h : LegalOrder v) : LegalOrder (BitVec.ofNat 17 v).toNat := by
  obtain ⟨k, hk, rfl⟩ := h
  refine ⟨k, hk, ?_⟩
  rw [BitVec.toNat_ofNat, Nat.mod_eq_of_lt (Nat.pow_lt_pow_right (by decide) (by omega))]

/-- The registers a successful command `i` may hand to `succeed`: only `CLEAR` touches `ERR_FIRST` (R104, R72), and `ORDER` stays or
becomes a legal order (R21). -/
structure LegalResult (i : Instr) (r r' : Regs) : Prop where
  errFirst : r'.errFirst = if i = .clear then 0 else r.errFirst
  order : r'.order = r.order ∨ LegalOrder r'.order.toNat

/-- Every command ends in the error procedure or in success (R102, R104, R120). -/
theorem exec_raises_or_succeeds (i : Instr) (s : State) :
    (∃ e, exec i s = raiseError e s) ∨ (∃ r, exec i s = succeed r s ∧ LegalResult i s.regs r) := by
  cases i with
  | setn =>
    by_cases h : (!isPow2 s.regs.nreq.toNat || decide (Config.orderMax < s.regs.nreq.toNat)) = true
    · exact .inl ⟨_, if_pos h⟩
    · exact .inr ⟨_, if_neg h, rfl, .inr (legalOrder_ofNat (legalOrder_of_setn_accepts h))⟩
  | setdim =>
    by_cases h : Config.dimMax < s.regs.width.toNat ∨ Config.dimMax < s.regs.height.toNat
    · exact .inl ⟨_, if_pos h⟩
    · exact .inr ⟨_, if_neg h, rfl, .inr (legalOrder_ofNat (legalOrder_npot _))⟩
  | d2xy =>
    by_cases h : s.regs.order.toNat * s.regs.order.toNat ≤ s.regs.dist.toNat
    · exact .inl ⟨_, if_pos h⟩
    · exact .inr ⟨_, if_neg h, rfl, .inl rfl⟩
  | xy2d =>
    by_cases h : s.regs.order.toNat ≤ s.regs.coordX ∨ s.regs.order.toNat ≤ s.regs.coordY
    · exact .inl ⟨_, if_pos h⟩
    · exact .inr ⟨_, if_neg h, rfl, .inl rfl⟩
  | unpremul =>
    by_cases h : s.regs.nativeNA = 0
    · exact .inr ⟨_, if_pos h, rfl, .inl rfl⟩
    · exact .inr ⟨_, if_neg h, rfl, .inl rfl⟩
  | nop | clear | bounds | qh | qc | ql | qa | dqh | dqc | dql | premul | nalpha => exact .inr ⟨_, rfl, rfl, .inl rfl⟩

/-- So does every command word (R57). -/
theorem runCommand_raises_or_succeeds (w : Word) (s : State) :
    (∃ e, runCommand w s = raiseError e s) ∨
    (∃ i r, decode w = .ok i ∧ runCommand w s = succeed r s ∧ LegalResult i s.regs r) := by
  obtain ⟨i, hi, hrun⟩ | ⟨-, hrun⟩ := runCommand_cases w s
  · rw [hrun]
    obtain ⟨e, he⟩ | ⟨r, hr, hlegal⟩ := exec_raises_or_succeeds i s
    · exact .inl ⟨e, he⟩
    · exact .inr ⟨i, r, hi, hr, hlegal⟩
  · exact .inl ⟨_, hrun⟩

/-! ### The invariant -/

/-- The invariant speaks of the registers alone. -/
theorem inv_of_regs_eq {s t : State} (hs : Inv s) (h : t.regs = s.regs) : Inv t := by
  obtain ⟨horder, hcodes, hfirst⟩ := hs
  rw [← h] at horder hcodes hfirst
  exact ⟨horder, hcodes, hfirst⟩

/-- R35: the reset values meet the invariant. -/
theorem inv_of_regs_reset {s : State} (h : s.regs = Regs.reset) : Inv s :=
  inv_of_regs_eq (s := State.reset) ⟨⟨0, by decide, by decide⟩, by decide, by decide⟩ h

/-- R102: the error procedure keeps the invariant. -/
theorem inv_of_raiseError {e : ErrorCode} {s t : State} (h : raiseError e s = .next t) (hs : Inv s) : Inv t := by
  obtain rfl := (raiseError_next_iff e s t).1 h
  obtain ⟨horder, ⟨-, hfirst⟩, -⟩ := hs
  refine ⟨horder, ⟨errorNumber_le_five e, ?_⟩, fun _ => ?_⟩
  · rw [recordError_errFirst]
    split
    · exact errorNumber_le_five e
    · exact hfirst
  · rw [recordError_errFirst]
    split
    · exact errorNumber_ne_zero e
    · assumption

/-- R104: success with a legal result keeps the invariant. -/
theorem inv_of_succeed {i : Instr} {r : Regs} {s t : State} (h : succeed r s = .next t) (hr : LegalResult i s.regs r)
    (hs : Inv s) : Inv t := by
  obtain rfl := (succeed_next_iff r s t).1 h
  obtain ⟨hfirst, hlegal⟩ := hr
  obtain ⟨horder, ⟨-, hcode⟩, -⟩ := hs
  refine ⟨?_, ⟨Nat.zero_le 5, ?_⟩, fun hne => absurd rfl hne⟩
  · obtain hsame | hlegal := hlegal
    · unfold OrderOk
      rwa [recordSuccess_order, hsame]
    · exact hlegal
  · rw [recordSuccess_errFirst, hfirst]
    split
    · exact Nat.zero_le 5
    · exact hcode

/-- A command word keeps the invariant. -/
theorem inv_of_runCommand {w : Word} {s t : State} (h : runCommand w s = .next t) (hs : Inv s) : Inv t := by
  obtain ⟨e, he⟩ | ⟨i, r, -, hr, hlegal⟩ := runCommand_raises_or_succeeds w s
  · exact inv_of_raiseError (he ▸ h) hs
  · exact inv_of_succeed (hr ▸ h) hlegal hs

/-- A bus write outside `CMD` reaches neither `ORDER` nor `STATUS` (R21, R15). -/
theorem inv_of_writeWindow (off : Nat) (v : Word) {s : State} (hs : Inv s) :
    Inv { s with regs := writeWindow off v s.regs } := by
  obtain ⟨horder, hcodes, hfirst⟩ := hs
  unfold writeWindow
  split
  case h_1 name _ =>
    refine ⟨?_, ?_, ?_⟩
    · simpa only [OrderOk, writeReg_order] using horder
    · simpa only [CodesOk, writeReg_errLast, writeReg_errFirst] using hcodes
    · simpa only [FirstErrorKept, writeReg_errLast, writeReg_errFirst] using hfirst
  case h_2 => exact ⟨horder, hcodes, hfirst⟩

/-- A bus access that the machine survives keeps the invariant. -/
theorem inv_of_serveAccess {a : Access} {s t : State} (h : serveAccess a s = .next t) (hs : Inv s) : Inv t := by
  obtain ⟨-, ⟨off, -, rfl⟩ | ⟨off, v, -, -, rfl⟩ | ⟨w, -, hw⟩ | ⟨-, rfl⟩⟩ := serveAccess_next_cases a s t h
  · exact inv_of_regs_eq hs rfl
  · exact inv_of_writeWindow off v hs
  · exact inv_of_runCommand hw hs
  · exact inv_of_regs_eq hs rfl

/-- A change of the reset input keeps the invariant: the registers stay or take their reset values (R117). -/
theorem inv_of_resetLine (asserted : Bool) {s : State} (hs : Inv s) : Inv (resetLine asserted s) := by
  cases asserted with
  | true => exact inv_of_regs_eq hs (resetLine_true_regs s)
  | false =>
    have hregs := resetLine_false_regs s
    split at hregs
    · exact inv_of_regs_reset hregs
    · exact inv_of_regs_eq hs hregs

/-- Settles O58, by the kinds of event a step can take. -/
theorem invariantIsKeptByEveryStep : Obligations.InvariantIsKeptByEveryStep := by
  unfold Obligations.InvariantIsKeptByEveryStep
  intro s t hs hstep
  obtain ⟨-, rfl⟩ | ⟨a, rest, -, ha⟩ | ⟨b, rest, -, rfl⟩ | ⟨rest, -, rfl⟩ := step_next_cases s t hstep
  · exact hs
  · exact inv_of_serveAccess ha (inv_of_regs_eq hs rfl)
  · exact inv_of_resetLine b (inv_of_regs_eq hs rfl)
  · exact inv_of_regs_reset rfl

/-- Settles O57. -/
theorem invariantHoldsAtReset : Obligations.InvariantHoldsAtReset :=
  fun p => inv_of_regs_reset (State.resetOn_regs p)

/-! ### The first error over a sequence of command words -/

/-- R120: every command word completes. -/
theorem runCommand_completes (w : Word) (s : State) : ∃ t, runCommand w s = .next t := by
  obtain ⟨e, he⟩ | ⟨i, r, -, hr, -⟩ := runCommand_raises_or_succeeds w s
  · exact ⟨_, he⟩
  · exact ⟨_, hr⟩

/-- R17: a word other than `CLEAR` that leaves `ERR_FIRST = 0` found it 0 and did not fail. -/
theorem errFirst_zero_before_runCommand {w : Word} {s t : State} (hw : w ≠ encode .clear) (h : runCommand w s = .next t)
    (ht : t.regs.errFirst = 0) : s.regs.errFirst = 0 ∧ t.regs.errLast = 0 := by
  obtain ⟨e, he⟩ | ⟨i, r, hi, hr, hlegal⟩ := runCommand_raises_or_succeeds w s
  · obtain rfl := (raiseError_next_iff e s t).1 (he ▸ h)
    rw [recordError_errFirst] at ht
    split at ht
    · exact absurd ht (errorNumber_ne_zero e)
    · contradiction
  · obtain rfl := (succeed_next_iff r s t).1 (hr ▸ h)
    have hclear : i ≠ .clear := by
      rintro rfl
      obtain ⟨hop, hrsv⟩ := (decode_eq_ok_iff w .clear).1 hi
      apply hw
      rw [← rsvField_append_opField w, (opcodeMap_eq_some_iff _ _).1 hop, hrsv]
      rfl
    rw [recordSuccess_errFirst, hlegal.errFirst, if_neg hclear] at ht
    exact ⟨ht, recordSuccess_errLast r⟩

/-- R17, with the start included, as the induction over the words needs it: `ERR_FIRST = 0` at the end was 0 at the start. -/
theorem outcomes_of_errFirst_zero (ws : List Word) (s : State) (hws : ∀ w, w ∈ ws → w ≠ encode .clear)
    (hend : (outcomes ws s).2.regs.errFirst = 0) :
    s.regs.errFirst = 0 ∧ (outcomes ws s).1.length = ws.length ∧ ∀ e, e ∈ (outcomes ws s).1 → e = 0 := by
  induction ws generalizing s with
  | nil => exact ⟨hend, rfl, fun e he => absurd he List.not_mem_nil⟩
  | cons w ws ih =>
    obtain ⟨t, ht⟩ := runCommand_completes w s
    have hout : outcomes (w :: ws) s = (t.regs.errLast :: (outcomes ws t).1, (outcomes ws t).2) := by
      simp only [outcomes, ht]
    rw [hout] at hend ⊢
    obtain ⟨hfirst, hlength, hzero⟩ := ih t (fun w' hw' => hws w' (List.mem_cons_of_mem w hw')) hend
    obtain ⟨hstart, hlast⟩ := errFirst_zero_before_runCommand (hws w List.mem_cons_self) ht hfirst
    exact ⟨hstart, congrArg (· + 1) hlength, List.forall_mem_cons.2 ⟨hlast, hzero⟩⟩

/-- Settles O40, by induction on the words. -/
theorem errFirstZeroMeansNoFailure : Obligations.ErrFirstZeroMeansNoFailure := by
  unfold Obligations.ErrFirstZeroMeansNoFailure
  intro ws s hws hend
  exact (outcomes_of_errFirst_zero ws s hws hend).2

end Sys2Proof.Machine
end

section
/-!
PROOFS. A command's outcome is a function of the registers it reads (R34, O37): states that agree on those give the same operands,
and the same operands end both runs in the same way.
-/

namespace Sys2Proof.Machine

open Sys2Proof.Claims

/-! ### Equal words of the window give equal operands -/

theorem order_eq_of_readReg {r r' : Regs} (h : readReg r .order = readReg r' .order) : r.order = r'.order := by
  simpa [readReg] using congrArg (BitVec.setWidth 17) h

theorem qbyte_eq_of_readReg {r r' : Regs} (h : readReg r .qbyte = readReg r' .qbyte) : r.qbyte = r'.qbyte := by
  simpa [readReg] using congrArg (BitVec.setWidth 8) h

theorem abyte_eq_of_readReg {r r' : Regs} (h : readReg r .abyte = readReg r' .abyte) : r.abyte = r'.abyte := by
  simpa [readReg] using congrArg (BitVec.setWidth 8) h

/-- The two words of `F` determine it (R27). -/
theorem f_eq_of_readReg {r r' : Regs} (hlo : readReg r .flo = readReg r' .flo) (hhi : readReg r .fhi = readReg r' .fhi) :
    r.f = r'.f := by
  calc r.f = readReg r .fhi ++ readReg r .flo := (float_of_halves r.f).symm
    _ = readReg r' .fhi ++ readReg r' .flo := by rw [hlo, hhi]
    _ = r'.f := float_of_halves r'.f

theorem coordX_congr {r r' : Regs} (h : r.coord = r'.coord) : r.coordX = r'.coordX := by simp only [Regs.coordX, h]
theorem coordY_congr {r r' : Regs} (h : r.coord = r'.coord) : r.coordY = r'.coordY := by simp only [Regs.coordY, h]
theorem nativeNC_congr {r r' : Regs} (h : r.native = r'.native) : r.nativeNC = r'.nativeNC := by simp only [Regs.nativeNC, h]
theorem nativeNA_congr {r r' : Regs} (h : r.native = r'.native) : r.nativeNA = r'.nativeNA := by simp only [Regs.nativeNA, h]

/-! ### Runs that end alike -/

/-- What R34 claims of the outcomes `o` and `o'` of the command `i` from `s` and `s'`: wherever both go on, the error code, the
destinations of a success, `INB` after `BOUNDS`, and `NAN` after the same `NAN` are the same. -/
def SameResult (i : Instr) (s s' : State) (o o' : Host.Outcome State Fault Refusal) : Prop :=
  ∀ t t', o = .next t → o' = .next t' →
    t.regs.errLast = t'.regs.errLast ∧
    (t.regs.errLast = 0 → ∀ r, r ∈ writes i → readReg t.regs r = readReg t'.regs r) ∧
    (i = .bounds → t.regs.inb = t'.regs.inb) ∧
    (s.regs.nan = s'.regs.nan → t.regs.nan = t'.regs.nan)

variable {i : Instr} {s s' : State}

/-- The same error in both runs; `BOUNDS` raises none. -/
theorem sameResult_raiseError (e : ErrorCode) (hi : i ≠ .bounds) : SameResult i s s' (raiseError e s) (raiseError e s') := by
  intro t t' ht ht'
  obtain rfl := (raiseError_next_iff e s t).1 ht
  obtain rfl := (raiseError_next_iff e s' t').1 ht'
  exact ⟨rfl, fun hzero => absurd hzero (errorNumber_ne_zero e), fun hb => absurd hb hi, id⟩

/-- Success in both runs, with results that agree on what the command writes. -/
theorem sameResult_succeed {r r' : Regs} (hwrites : ∀ a, a ∈ writes i → readReg (recordSuccess r) a = readReg (recordSuccess r') a)
    (hinb : i = .bounds → r.inb = r'.inb) (hnan : s.regs.nan = s'.regs.nan → r.nan = r'.nan) :
    SameResult i s s' (succeed r s) (succeed r' s') := by
  intro t t' ht ht'
  obtain rfl := (succeed_next_iff r s t).1 ht
  obtain rfl := (succeed_next_iff r' s' t').1 ht'
  exact ⟨rfl, fun _ => hwrites, hinb, hnan⟩

/-- The same byte, and the same NaN met, in both runs. -/
theorem sameResult_finishByte (q : Byte × Bool) (hi : writes i = [.qbyte]) (hb : i ≠ .bounds) :
    SameResult i s s' (finishByte q s) (finishByte q s') := by
  refine sameResult_succeed (fun a ha => ?_) (fun h => absurd h hb) (fun h => ?_)
  · rw [hi, List.mem_singleton] at ha
    subst ha
    rfl
  · simp only [stickyNan_nan, h]

/-- The same float in both runs. -/
theorem sameResult_finishFloat (v : F64) (hi : writes i = [.flo, .fhi]) (hb : i ≠ .bounds) :
    SameResult i s s' (finishFloat v s) (finishFloat v s') := by
  refine sameResult_succeed (fun a ha => ?_) (fun h => absurd h hb) id
  rw [hi, List.mem_pair] at ha
  obtain rfl | rfl := ha
  · rfl
  · rfl

/-! ### One lemma per command that can fail or branch -/

/-- `SETN` reads `NREQ` alone. -/
theorem sameResult_setn (h : s.regs.nreq = s'.regs.nreq) : SameResult .setn s s' (exec .setn s) (exec .setn s') := by
  simp only [exec, execSetn, h]
  split
  · exact sameResult_raiseError _ (by decide)
  · exact sameResult_succeed (by simp [writes, readReg]) (by simp) id

/-- `SETDIM` reads `WIDTH` and `HEIGHT` alone. -/
theorem sameResult_setdim (hw : s.regs.width = s'.regs.width) (hh : s.regs.height = s'.regs.height) :
    SameResult .setdim s s' (exec .setdim s) (exec .setdim s') := by
  simp only [exec, execSetdim, hw, hh]
  split
  · exact sameResult_raiseError _ (by decide)
  · exact sameResult_succeed (by simp [writes, readReg]) (by simp) id

/-- `D2XY` reads `ORDER` and `DIST` alone. -/
theorem sameResult_d2xy (hn : s.regs.order = s'.regs.order) (hd : s.regs.dist = s'.regs.dist) :
    SameResult .d2xy s s' (exec .d2xy s) (exec .d2xy s') := by
  simp only [exec, execD2xy, hn, hd]
  split
  · exact sameResult_raiseError _ (by decide)
  · exact sameResult_succeed (by simp [writes, readReg]) (by simp) id

/-- `XY2D` reads `ORDER` and `COORD` alone. -/
theorem sameResult_xy2d (hn : s.regs.order = s'.regs.order) (hc : s.regs.coord = s'.regs.coord) :
    SameResult .xy2d s s' (exec .xy2d s) (exec .xy2d s') := by
  simp only [exec, execXy2d, coordX_congr hc, coordY_congr hc, hn]
  split
  · exact sameResult_raiseError _ (by decide)
  · exact sameResult_succeed (by simp [writes, readReg]) (by simp) id

/-- `BOUNDS` reads `COORD`, `WIDTH` and `HEIGHT` alone; it writes no register but `STATUS`. -/
theorem sameResult_bounds (hc : s.regs.coord = s'.regs.coord) (hw : s.regs.width = s'.regs.width)
    (hh : s.regs.height = s'.regs.height) : SameResult .bounds s s' (exec .bounds s) (exec .bounds s') := by
  simp only [exec, execBounds, coordX_congr hc, coordY_congr hc, hw, hh]
  exact sameResult_succeed (by simp [writes]) (fun _ => rfl) id

/-- `UNPREMUL` reads `NATIVE` alone. -/
theorem sameResult_unpremul (h : s.regs.native = s'.regs.native) :
    SameResult .unpremul s s' (exec .unpremul s) (exec .unpremul s') := by
  simp only [exec, execUnpremul, nativeNA_congr h, nativeNC_congr h]
  split
  · exact sameResult_finishFloat _ rfl (by decide)
  · exact sameResult_finishFloat _ rfl (by decide)

/-- R34 for every command: equal operands give equal results. -/
theorem sameResult_exec (hp : s.platform = s'.platform)
    (hreads : ∀ r, r ∈ reads i → readReg s.regs r = readReg s'.regs r) : SameResult i s s' (exec i s) (exec i s') := by
  cases i with
  | nop => exact sameResult_succeed (by simp [writes]) (by simp) id
  | clear => exact sameResult_succeed (by simp [writes]) (by simp) (fun _ => rfl)
  | setn => exact sameResult_setn (hreads .nreq (by decide))
  | setdim => exact sameResult_setdim (hreads .width (by decide)) (hreads .height (by decide))
  | d2xy => exact sameResult_d2xy (order_eq_of_readReg (hreads .order (by decide))) (hreads .dist (by decide))
  | xy2d => exact sameResult_xy2d (order_eq_of_readReg (hreads .order (by decide))) (hreads .coord (by decide))
  | bounds => exact sameResult_bounds (hreads .coord (by decide)) (hreads .width (by decide)) (hreads .height (by decide))
  | unpremul => exact sameResult_unpremul (hreads .native (by decide))
  | qh | qc | ql | qa =>
    have hf : s.regs.float = s'.regs.float :=
      congrArg f64bits (f_eq_of_readReg (hreads .flo (by decide)) (hreads .fhi (by decide)))
    simp only [exec, execQh, execQc, execQl, execQa, hf]
    exact sameResult_finishByte _ rfl (by decide)
  | premul =>
    have hf := f_eq_of_readReg (hreads .flo (by decide)) (hreads .fhi (by decide))
    have ha := abyte_eq_of_readReg (hreads .abyte (by decide))
    simp only [exec, execPremul, Regs.float, Regs.abyteFloat, hf, ha, hp]
    exact sameResult_finishByte _ rfl (by decide)
  | dqh | dqc | dql =>
    have hq := qbyte_eq_of_readReg (hreads .qbyte (by decide))
    simp only [exec, execDqh, execDqc, execDql, Regs.qbyteFloat, hq]
    exact sameResult_finishFloat _ rfl (by decide)
  | nalpha =>
    have hn : s.regs.native = s'.regs.native := hreads .native (by decide)
    simp only [exec, execNalpha, nativeNA_congr hn]
    exact sameResult_finishFloat _ rfl (by decide)

end Sys2Proof.Machine
end

section
/-!
PROOFS. The statement on what commands read (O37), the words of the window that `10_state.md` fixes (O44, O45, O48), the step on a
command word (O52) and the reset values (O55).
-/

namespace Sys2Proof.Machine

open Sys2Proof.Claims

/-- Settles O37. -/
theorem commandsDependOnlyOnTheirReads : Obligations.CommandsDependOnlyOnTheirReads :=
  fun _ _ _ t t' hp hreads ht ht' => sameResult_exec hp hreads t t' ht ht'

/-- R14: the word at offset 0 is the constant of `ID`, whatever the registers. -/
theorem readWindow_id (r : Regs) : readWindow 0x00 r = 0x31584654#32 := rfl

/-- Settles O44: a read of offset 0 is served, and its bytes are those of the constant. -/
theorem idSpellsTfx1 : Obligations.IdSpellsTfx1 := by
  unfold Obligations.IdSpellsTfx1
  intro s hr
  constructor
  · rw [serveAccess_read s 0x00 hr (by decide) (by decide), readWindow_id]
    rfl
  · simp only [windowByte, Nat.reduceDiv, Nat.reduceMul, readWindow_id]
    decide

/-- Settles O45: each field is reached by peeling the fields below it off the concatenation of `statusWord`. -/
theorem statusLayout : Obligations.StatusLayout := by
  unfold Obligations.StatusLayout
  intro r
  simp only [readReg, statusWord]
  refine ⟨extract_low_append 28 4 _ _, ?_, ?_, ?_, ?_⟩
  · rw [BitVec.extractLsb'_append_eq_of_le (by decide)]
    exact extract_low_append 24 4 _ _
  · simp only [BitVec.getLsbD_append, Nat.reduceLT, Nat.reduceSub]
    simp
  · simp only [BitVec.getLsbD_append, Nat.reduceLT, Nat.reduceSub]
    simp
  · simp only [BitVec.extractLsb'_append_eq_of_le, Nat.reduceLeDiff, Nat.reduceSub]
    rfl

/-- Settles O48: `FLO` and `FHI` are written like any register, each over its own half. -/
theorem halvesOfFAreSeparate : Obligations.HalvesOfFAreSeparate := by
  unfold Obligations.HalvesOfFAreSeparate
  intro v s hr
  exact ⟨serveAccess_write s 0x24 v hr (by decide) (by decide) (by decide),
    serveAccess_write s 0x28 v hr (by decide) (by decide) (by decide)⟩

/-- A step whose next event is an access serves it (R47). -/
theorem step_of_access {s : State} {a : Access} {rest : List Event} (h : s.pending = .access a :: rest) :
    step s = serveAccess a { s with pending := rest } := by
  simp only [step, nextEvent, h, serveEvent]

/-- Settles O52: the access is served, and its word runs. -/
theorem stepRunsTheDecodedCommand : Obligations.StepRunsTheDecodedCommand := by
  unfold Obligations.StepRunsTheDecodedCommand
  intro s w i rest hr hpending hdecode _
  calc step s = serveAccess (.write (s.platform.base + 8) 4 w) { s with pending := rest } := step_of_access hpending
    _ = runCommand w { s with pending := rest } := serveAccess_command { s with pending := rest } w hr
    _ = exec i { s with pending := rest } := runCommand_of_decode w _ i hdecode

/-- Settles O55. -/
theorem resetValues : Obligations.ResetValues := by
  unfold Obligations.ResetValues
  intro p
  rw [State.resetOn_regs]
  exact ⟨rfl, by decide, rfl⟩

end Sys2Proof.Machine
end

section
/-!
PROOFS. The window of `20_memory.md`: what a word reads as after a write at the same and at another offset, the bytes of a word, and
from these the statements on reads and writes (O41, O42, O43, O46, O47).
-/

namespace Sys2Proof.Machine

open Sys2Proof.Claims

/-! ### The word at an offset -/

@[simp] theorem readWindow_offset (a : RegName) (r : Regs) : readWindow a.offset r = readReg r a := by
  simp only [readWindow, regAt_offset]

@[simp] theorem writeWindow_offset (a : RegName) (v : Word) (r : Regs) : writeWindow a.offset v r = writeReg r v a := by
  simp only [writeWindow, regAt_offset]

/-- R41: an offset without a register ignores a write. -/
theorem writeWindow_of_regAt_none {off : Nat} (h : regAt off = none) (v : Word) (r : Regs) : writeWindow off v r = r := by
  simp only [writeWindow, h]

/-- R41: an offset without a register reads 0. -/
theorem readWindow_of_regAt_none {off : Nat} (h : regAt off = none) (r : Regs) : readWindow off r = 0 := by
  simp only [readWindow, h]

/-- R28, R29: what is left of a word in a register of one byte. -/
theorem setWidth_byte_of_word (v : Word) : (v.setWidth 8).setWidth 32 = v &&& 0xFF := by
  apply BitVec.eq_of_toNat_eq
  have hmask : v.toNat &&& 255 = v.toNat % 256 := Nat.and_two_pow_sub_one_eq_mod v.toNat 8
  simp [BitVec.toNat_and, hmask]
  omega

/-- A read-write register reads as the bits it keeps of the word written to it (R40, R41). -/
theorem readReg_writeReg_same (r : Regs) (v : Word) {a : RegName} (ha : readWrite a = true) :
    readReg (writeReg r v a) a = keptBits a v := by
  cases a with
  | id | status | cmd | order => simp [readWrite] at ha
  | nreq | width | height | dist | coord | native => rfl
  | flo => exact float_low_half _ v
  | fhi => exact float_high_half v _
  | qbyte | abyte => exact setWidth_byte_of_word v

/-- A write at one offset leaves the word at every other as it was (R40). -/
theorem readWindow_writeWindow_of_ne {off off' : Nat} (h : off ≠ off') (v : Word) (r : Regs) :
    readWindow off' (writeWindow off v r) = readWindow off' r := by
  cases ha : regAt off with
  | none => rw [writeWindow_of_regAt_none ha]
  | some a =>
    cases hb : regAt off' with
    | none => rw [readWindow_of_regAt_none hb, readWindow_of_regAt_none hb]
    | some b =>
      obtain rfl := (regAt_eq_some_iff off a).1 ha
      obtain rfl := (regAt_eq_some_iff off' b).1 hb
      rw [writeWindow_offset, readWindow_offset, readWindow_offset]
      exact readReg_writeReg_of_ne r v a b fun hab => h (congrArg RegName.offset hab)

/-! ### Accesses of one register -/

/-- A read-write register is not `CMD`. -/
theorem offset_ne_cmd_of_readWrite {a : RegName} (ha : readWrite a = true) : a.offset ≠ 0x08 := by
  intro h
  obtain rfl : a = .cmd := by simpa using (regAt_eq_some_iff a.offset .cmd).2 h
  simp [readWrite] at ha

/-- A 32-bit write to a read-write register is served and stores its word there (R38, R40). -/
theorem serveAccess_write_readWrite (s : State) (v : Word) {a : RegName} (hr : s.inReset = false) (ha : readWrite a = true) :
    serveAccess (.write (s.platform.base + a.offset) 4 v) s = .next { s with regs := writeReg s.regs v a } := by
  obtain ⟨haligned, hlt⟩ := regName_offset_aligned a
  rw [serveAccess_write s a.offset v hr hlt haligned (offset_ne_cmd_of_readWrite ha), writeWindow_offset]

/-- A 32-bit read of a register is served and answers its word (R38, R40). -/
theorem serveAccess_read_register (s : State) (a : RegName) (hr : s.inReset = false) :
    serveAccess (.read (s.platform.base + a.offset) 4) s = .next (reply (.value (readReg s.regs a)) s) := by
  obtain ⟨haligned, hlt⟩ := regName_offset_aligned a
  rw [serveAccess_read s a.offset hr hlt haligned, readWindow_offset]

/-- Settles O41. -/
theorem readAfterWriteOfARegister : Obligations.ReadAfterWriteOfARegister := by
  unfold Obligations.ReadAfterWriteOfARegister
  intro a v s hr ha
  refine ⟨_, _, serveAccess_write_readWrite s v hr ha,
    serveAccess_read_register { s with regs := writeReg s.regs v a } a hr, ?_⟩
  rw [reply_replies, readReg_writeReg_same s.regs v ha]

/-! ### The bytes of the window -/

/-- A write reaches no byte of another word (R37). -/
theorem windowByte_writeWindow_of_ne {off b : Nat} (h : off ≠ b / 4 * 4) (v : Word) (r : Regs) :
    windowByte b (writeWindow off v r) = windowByte b r := by
  simp only [windowByte, readWindow_writeWindow_of_ne h]

/-- Settles O42: a byte outside the four belongs to another word, since offsets are aligned. -/
theorem writeLeavesOtherBytesAlone : Obligations.WriteLeavesOtherBytesAlone := by
  unfold Obligations.WriteLeavesOtherBytesAlone
  intro a v s b hr ha hb
  refine ⟨_, serveAccess_write_readWrite s v hr ha, ?_⟩
  have hne : a.offset ≠ b / 4 * 4 := by
    obtain ⟨haligned, -⟩ := regName_offset_aligned a
    omega
  rw [← writeWindow_offset]
  exact windowByte_writeWindow_of_ne hne v s.regs

/-- R37 for an aligned offset: byte `off + i` is bits `8i+7 : 8i` of the word at `off`. -/
theorem windowByte_add {off i : Nat} (hoff : off % 4 = 0) (hi : i < 4) (r : Regs) :
    windowByte (off + i) r = (readWindow off r).extractLsb' (8 * i) 8 := by
  have hword : (off + i) / 4 * 4 = off := by omega
  have hbyte : (off + i) % 4 = i := by omega
  rw [windowByte, hword, hbyte]

/-- A word is its four bytes. -/
theorem word_of_bytes (w : Word) :
    w.extractLsb' 24 8 ++ w.extractLsb' 16 8 ++ w.extractLsb' 8 8 ++ w.extractLsb' 0 8 = w := by
  rw [BitVec.extractLsb'_append_extractLsb'_eq_extractLsb' (by decide),
    BitVec.extractLsb'_append_extractLsb'_eq_extractLsb' (by decide)]
  exact BitVec.extractLsb'_append_extractLsb'

/-- A field of a field is a field of the whole. -/
theorem extractLsb'_of_extractLsb' {w start len start' len' : Nat} (x : BitVec w) (h : start' + len' ≤ len) :
    (x.extractLsb' start len).extractLsb' start' len' = x.extractLsb' (start + start') len' := by
  apply BitVec.eq_of_getLsbD_eq
  intro i hi
  have hlen : start' + i < len := by omega
  simp [hi, hlen, Nat.add_assoc]

/-- R27, R37: `F` is little-endian across `FLO` and `FHI`. -/
theorem windowByte_float {i : Nat} (hi : i < 8) (r : Regs) : windowByte (0x24 + i) r = r.f.extractLsb' (8 * i) 8 := by
  by_cases hlow : i < 4
  · calc windowByte (0x24 + i) r = (r.f.extractLsb' 0 32).extractLsb' (8 * i) 8 := windowByte_add rfl hlow r
      _ = r.f.extractLsb' (0 + 8 * i) 8 := extractLsb'_of_extractLsb' r.f (by omega)
      _ = r.f.extractLsb' (8 * i) 8 := by rw [Nat.zero_add]
  · obtain ⟨j, rfl⟩ : ∃ j, i = 4 + j := ⟨i - 4, by omega⟩
    calc windowByte (0x24 + (4 + j)) r = windowByte (0x28 + j) r := by rw [← Nat.add_assoc]
      _ = (r.f.extractLsb' 32 32).extractLsb' (8 * j) 8 := windowByte_add rfl (by omega) r
      _ = r.f.extractLsb' (32 + 8 * j) 8 := extractLsb'_of_extractLsb' r.f (by omega)
      _ = r.f.extractLsb' (8 * (4 + j)) 8 := by rw [Nat.mul_add]

/-- Settles O46. -/
theorem windowIsLittleEndian : Obligations.WindowIsLittleEndian := by
  unfold Obligations.WindowIsLittleEndian
  intro r off hoff
  refine ⟨?_, fun i hi => windowByte_float hi r⟩
  have hfirst : windowByte off r = (readWindow off r).extractLsb' 0 8 := windowByte_add (i := 0) hoff (by decide) r
  rw [hfirst, windowByte_add hoff (by decide), windowByte_add hoff (by decide), windowByte_add hoff (by decide)]
  exact (word_of_bytes (readWindow off r)).symm

/-! ### Words that store nothing, and reads -/

/-- R40, R41: the read-only registers and the reserved offsets ignore a write. -/
theorem writeWindow_unstored {off : Nat} (h : off = 0x00 ∨ off = 0x04 ∨ off = 0x0C ∨ off = 0x38 ∨ off = 0x3C) (v : Word)
    (r : Regs) : writeWindow off v r = r := by
  obtain rfl | rfl | rfl | rfl | rfl := h
  · exact writeWindow_offset .id v r
  · exact writeWindow_offset .status v r
  · exact writeWindow_offset .order v r
  · exact writeWindow_of_regAt_none regAt_reserved.1 v r
  · exact writeWindow_of_regAt_none regAt_reserved.2 v r

/-- R20, R41: `CMD` and the reserved offsets read 0. -/
theorem readWindow_eq_zero {off : Nat} (h : off = 0x08 ∨ off = 0x38 ∨ off = 0x3C) (r : Regs) : readWindow off r = 0 := by
  obtain rfl | rfl | rfl := h
  · exact readWindow_offset .cmd r
  · exact readWindow_of_regAt_none regAt_reserved.1 r
  · exact readWindow_of_regAt_none regAt_reserved.2 r

/-- Settles O43. -/
theorem readOnlyAndReservedWordsIgnoreWrites : Obligations.ReadOnlyAndReservedWordsIgnoreWrites := by
  unfold Obligations.ReadOnlyAndReservedWordsIgnoreWrites
  intro off v s hr
  constructor
  · intro hoff
    rw [serveAccess_write s off v hr (by omega) (by omega) (by omega), writeWindow_unstored hoff]
  · intro hoff
    rw [serveAccess_read s off hr (by omega) (by omega), readWindow_eq_zero hoff]
    rfl

/-- Settles O47: the first read leaves the registers, so the second answers the same word. -/
theorem readsHaveNoSideEffect : Obligations.ReadsHaveNoSideEffect := by
  unfold Obligations.ReadsHaveNoSideEffect
  intro off s hr hlt haligned
  have hfirst := serveAccess_read s off hr hlt haligned
  have hsecond := serveAccess_read (reply (.value (readWindow off s.regs)) s) off hr hlt haligned
  refine ⟨readWindow off s.regs, _, _, hfirst, hsecond, rfl, ?_⟩
  simp only [reply, List.append_assoc, List.cons_append, List.nil_append]

end Sys2Proof.Machine
end

section
/-!
PROOFS. Accesses that are not served (O49, O50), and what every step does to the events, the platform and the replies (O53).
-/

namespace Sys2Proof.Machine

/-! ### Accesses that are not served -/

/-- R117, I20: no access is served while reset is asserted. -/
theorem serveAccess_of_inReset (a : Access) {s : State} (hr : s.inReset = true) : serveAccess a s = .fault .stuckInReset := by
  simp only [serveAccess, hr, if_true]

/-- R36: an address outside the 64 bytes from `BASE` has no offset. -/
theorem windowOffset_eq_none {p : Config.Platform} {addr : Nat} (h : addr < p.base ∨ p.base + 64 ≤ addr) :
    windowOffset p addr = none := by
  rw [Option.eq_none_iff_forall_ne_some]
  intro off hoff
  obtain ⟨rfl, hlt⟩ := (windowOffset_eq_some_iff p addr off).1 hoff
  omega

/-- R36: an access outside the window is not TFX's. -/
theorem serveAccess_outside {a : Access} {s : State} (hr : s.inReset = false)
    (h : a.addr < s.platform.base ∨ s.platform.base + 64 ≤ a.addr) : serveAccess a s = .fault .outsideWindow := by
  simp [serveAccess, hr, windowOffset_eq_none h]

/-- R39: an access of the window that is not 32 bits wide or not aligned is a bad access. -/
theorem serveAccess_bad {a : Access} {s : State} {off : Nat} (hr : s.inReset = false) (haddr : a.addr = s.platform.base + off)
    (hlt : off < 64) (hbad : a.bytes ≠ 4 ∨ a.addr % 4 ≠ 0) : serveAccess a s = badAccess s := by
  have hoff : windowOffset s.platform a.addr = some off := (windowOffset_eq_some_iff _ _ _).2 ⟨haddr, hlt⟩
  have hnot : ¬ (a.bytes = 4 ∧ off % 4 = 0) := by
    rw [haddr, base_add_mod_four] at hbad
    omega
  simp [serveAccess, hr, hoff, serveAt, hnot]

/-- Settles O49. -/
theorem badAccessesHaveNoEffect : Obligations.BadAccessesHaveNoEffect := by
  unfold Obligations.BadAccessesHaveNoEffect
  intro a s hr hlo hhi hbad
  have haddr : a.addr = s.platform.base + (a.addr - s.platform.base) := by omega
  have hserve : serveAccess a s = badAccess s := serveAccess_bad hr haddr (by omega) hbad
  constructor
  · intro hbus
    rw [hserve]
    exact (badAccess_next_iff s _).2 ⟨hbus, rfl⟩
  · intro hbus
    rw [hserve]
    simp [badAccess, hbus]

/-- Settles O50. -/
theorem unservedAccessesStop : Obligations.UnservedAccessesStop :=
  fun a _ => ⟨serveAccess_of_inReset a, serveAccess_outside⟩

/-! ### Events, platform and replies over a step -/

/-- What serving one event keeps: the events still to arrive, the platform, and the replies but for at most one at the end
(R6, R47). -/
structure KeepsSurroundings (s t : State) : Prop where
  pending : t.pending = s.pending
  platform : t.platform = s.platform
  replies : ∃ new, t.replies = s.replies ++ new ∧ new.length ≤ 1

theorem KeepsSurroundings.of_no_reply {s t : State} (hpending : t.pending = s.pending) (hplatform : t.platform = s.platform)
    (hreplies : t.replies = s.replies) : KeepsSurroundings s t :=
  ⟨hpending, hplatform, [], by rw [hreplies, List.append_nil], Nat.zero_le 1⟩

theorem keepsSurroundings_withRegs (s : State) (r : Regs) : KeepsSurroundings s { s with regs := r } :=
  .of_no_reply rfl rfl rfl

theorem keepsSurroundings_reply (a : Reply) (s : State) : KeepsSurroundings s (reply a s) :=
  ⟨rfl, rfl, [a], rfl, Nat.le_refl 1⟩

/-- A command changes registers alone (R120). -/
theorem keepsSurroundings_runCommand {w : Word} {s t : State} (h : runCommand w s = .next t) : KeepsSurroundings s t := by
  obtain ⟨e, he⟩ | ⟨_, r, -, hr, -⟩ := runCommand_raises_or_succeeds w s
  · obtain rfl := (raiseError_next_iff e s t).1 (he ▸ h)
    exact keepsSurroundings_withRegs s _
  · obtain rfl := (succeed_next_iff r s t).1 (hr ▸ h)
    exact keepsSurroundings_withRegs s _

/-- An access gives its one reply, or changes registers alone. -/
theorem keepsSurroundings_serveAccess {a : Access} {s t : State} (h : serveAccess a s = .next t) : KeepsSurroundings s t := by
  obtain ⟨-, ⟨off, -, rfl⟩ | ⟨off, v, -, -, rfl⟩ | ⟨w, -, hw⟩ | ⟨-, rfl⟩⟩ := serveAccess_next_cases a s t h
  · exact keepsSurroundings_reply _ s
  · exact keepsSurroundings_withRegs s _
  · exact keepsSurroundings_runCommand hw
  · exact keepsSurroundings_reply _ s

/-- The reset input reaches the registers and its own level alone (R117). -/
theorem keepsSurroundings_resetLine (asserted : Bool) (s : State) : KeepsSurroundings s (resetLine asserted s) := by
  cases asserted with
  | true => exact .of_no_reply rfl rfl rfl
  | false => exact .of_no_reply (resetLine_false_pending s) (resetLine_false_platform s) (resetLine_false_replies s)

/-- A step takes the first event off the list and keeps the rest of what surrounds the registers (R47). -/
theorem keepsSurroundings_step {s t : State} (h : step s = .next t) :
    KeepsSurroundings { s with pending := s.pending.tail } t := by
  obtain ⟨hp, rfl⟩ | ⟨a, rest, hp, ha⟩ | ⟨b, rest, hp, rfl⟩ | ⟨rest, hp, rfl⟩ := step_next_cases s t h
  · exact .of_no_reply (by rw [hp, List.tail_nil]) rfl rfl
  · rw [hp, List.tail_cons]
    exact keepsSurroundings_serveAccess ha
  · rw [hp, List.tail_cons]
    exact keepsSurroundings_resetLine b _
  · rw [hp, List.tail_cons]
    exact keepsSurroundings_withRegs _ Regs.reset

/-- Settles O53. -/
theorem stepTakesOneEventInOrder : Obligations.StepTakesOneEventInOrder := by
  unfold Obligations.StepTakesOneEventInOrder
  intro s t h
  obtain ⟨hpending, hplatform, hreplies⟩ := keepsSurroundings_step h
  exact ⟨hpending, hplatform, hreplies⟩

end Sys2Proof.Machine
end

section
/-!
PROOFS. The decoder and the encoder of `30_encoding.md` (O1, O2), the words that encode no command (O3), what each command leaves
unchanged (O36), and the pseudo-statements (O51).
-/

namespace Sys2Proof.Machine

open Sys2Proof.Claims

/-! ### The decoder and the encoder -/

/-- R54, R58: a word is a command's when its two fields are. -/
theorem eq_encode_iff (w : Word) (i : Instr) : w = encode i ↔ opField w = opcode i ∧ rsvField w = 0 := by
  constructor
  · rintro rfl
    exact ⟨opField_encode i, rsvField_encode i⟩
  · rintro ⟨hop, hrsv⟩
    calc w = rsvField w ++ opField w := (rsvField_append_opField w).symm
      _ = encode i := by rw [hop, hrsv]; rfl

/-- R57, R58: the decoder accepts the word of each command and no other. -/
theorem decode_eq_ok_iff_eq_encode (w : Word) (i : Instr) : decode w = .ok i ↔ w = encode i := by
  rw [decode_eq_ok_iff, opcodeMap_eq_some_iff, eq_encode_iff]

/-- Settles O1. -/
theorem decodeIsTheInverseOfEncode : Obligations.DecodeIsTheInverseOfEncode := decode_eq_ok_iff_eq_encode

theorem decode_encode (i : Instr) : decode (encode i) = .ok i := (decode_eq_ok_iff_eq_encode _ i).2 rfl

/-- Settles O2: each word is the encoding of its command. -/
theorem sampleWordsDecode : Obligations.SampleWordsDecode :=
  ⟨decode_encode .clear, decode_encode .d2xy, decode_encode .ql, decode_encode .dqc, decode_encode .unpremul⟩

/-! ### The words that encode no command -/

/-- R59: the opcode of every command lies outside the reserved ranges. -/
theorem encode_opcode_ranges (i : Instr) :
    (encode i).toNat % 256 ≤ 0x06 ∨ (0x10 ≤ (encode i).toNat % 256 ∧ (encode i).toNat % 256 ≤ 0x13) ∨
    (0x18 ≤ (encode i).toNat % 256 ∧ (encode i).toNat % 256 ≤ 0x1A) ∨
    (0x20 ≤ (encode i).toNat % 256 ∧ (encode i).toNat % 256 ≤ 0x22) := by
  cases i <;> decide

/-- R57, R102: a word that is no command's fails with code 1 and changes nothing else. -/
theorem runCommand_of_ne_encode {w : Word} (hw : ∀ i, w ≠ encode i) (s : State) :
    runCommand w s = .next (failedWith 1 s) := by
  obtain ⟨i, hi, -⟩ | ⟨-, hrun⟩ := runCommand_cases w s
  · exact absurd ((decode_eq_ok_iff_eq_encode w i).1 hi) (hw i)
  · rw [hrun]
    rfl

/-- Settles O3: no command's word has a reserved bit set, and none has a reserved opcode. -/
theorem illegalWordsRaiseIllegalCommand : Obligations.IllegalWordsRaiseIllegalCommand := by
  unfold Obligations.IllegalWordsRaiseIllegalCommand
  intro w s hillegal
  refine runCommand_of_ne_encode (fun i hi => ?_) s
  subst hi
  obtain hrsv | hop := hillegal
  · exact hrsv (rsvField_encode i)
  · have := encode_opcode_ranges i
    omega

/-! ### What a command leaves unchanged -/

/-- The change from the registers `r` to `r'` is one that R58 (column "writes"), R18 and R19 allow the command `i`. -/
structure WithinRow (i : Instr) (r r' : Regs) : Prop where
  window : ∀ a, a ∉ writes i → a ≠ .status → readReg r' a = readReg r a
  inb : i ≠ .bounds → r'.inb = r.inb
  nanKept : setsNan i = false → i ≠ .clear → r'.nan = r.nan
  nanSticky : setsNan i = true → r.nan = true → r'.nan = true

/-- A command's row allows one update after another. -/
theorem WithinRow.trans {i : Instr} {r r' r'' : Regs} (h : WithinRow i r r') (h' : WithinRow i r' r'') : WithinRow i r r'' where
  window a ha hs := (h'.window a ha hs).trans (h.window a ha hs)
  inb hb := (h'.inb hb).trans (h.inb hb)
  nanKept hn hc := (h'.nanKept hn hc).trans (h.nanKept hn hc)
  nanSticky hn hr := h'.nanSticky hn (h.nanSticky hn hr)

/-- An update that keeps `INB` and `NAN` is within the row when it reaches no register outside it. -/
theorem WithinRow.of_window {i : Instr} {r r' : Regs} (hinb : r'.inb = r.inb) (hnan : r'.nan = r.nan)
    (hwindow : ∀ a, a ∉ writes i → a ≠ .status → readReg r' a = readReg r a) : WithinRow i r r' :=
  ⟨hwindow, fun _ => hinb, fun _ _ => hnan, fun _ hr => hnan.trans hr⟩

/-- R15: the fields of `STATUS` are read in `STATUS` alone. -/
theorem readReg_of_status_fields (r : Regs) (last first : BitVec 4) (inb nan : Bool) {a : RegName} (ha : a ≠ .status) :
    readReg { r with errLast := last, errFirst := first, inb := inb, nan := nan } a = readReg r a := by
  cases a with
  | status => exact absurd rfl ha
  | id | cmd | order | nreq | width | height | dist | coord | flo | fhi | qbyte | abyte | native => rfl

/-- R21: the field `ORDER` is read in `ORDER` alone. -/
theorem readReg_of_order (r : Regs) (n : BitVec 17) {a : RegName} (ha : a ≠ .order) :
    readReg { r with order := n } a = readReg r a := by
  cases a with
  | order => exact absurd rfl ha
  | id | status | cmd | nreq | width | height | dist | coord | flo | fhi | qbyte | abyte | native => rfl

section Updates

variable (i : Instr) (r : Regs)

/-- R102: the error procedure reaches `STATUS` alone, and neither `INB` nor `NAN`. -/
theorem withinRow_recordError (e : ErrorCode) : WithinRow i r (recordError e r) :=
  .of_window rfl rfl fun _ _ hs => readReg_of_status_fields r _ _ r.inb r.nan hs

/-- R104: so does the record of success. -/
theorem withinRow_recordSuccess : WithinRow i r (recordSuccess r) :=
  .of_window rfl rfl fun _ _ hs => readReg_of_status_fields r 0 r.errFirst r.inb r.nan hs

/-- R19: a quantizer or `PREMUL` may set `NAN`, and keeps it where it was set. -/
theorem withinRow_stickyNan (met : Bool) (hi : setsNan i = true) : WithinRow i r (stickyNan met r) where
  window _ _ hs := readReg_of_status_fields r r.errLast r.errFirst r.inb _ hs
  inb _ := stickyNan_inb met r
  nanKept hn := absurd (hi.symm.trans hn) (by decide)
  nanSticky _ hr := by rw [stickyNan_nan, hr, Bool.true_or]

/-- The row of a command that writes `ORDER` allows any value there. -/
theorem withinRow_order (n : BitVec 17) (hi : .order ∈ writes i) : WithinRow i r { r with order := n } :=
  .of_window rfl rfl fun _ ha _ => readReg_of_order r n fun h => ha (h ▸ hi)

/-- So does the row for a read-write register, in the words of a bus write (R40). -/
theorem withinRow_writeReg (v : Word) {a : RegName} (ha : a ∈ writes i) : WithinRow i r (writeReg r v a) :=
  .of_window (writeReg_inb r v a) (writeReg_nan r v a)
    fun b hb _ => readReg_writeReg_of_ne r v a b fun h => hb (h ▸ ha)

/-- R28: a byte put into `QBYTE` is the bus write of that byte. -/
theorem writeReg_qbyte_of_byte (q : Byte) : writeReg r (q.setWidth 32) .qbyte = { r with qbyte := q } := by
  simp [writeReg]

/-- R27: the bus writes of the two halves of a pattern leave `F` equal to it. -/
theorem writeReg_flo_fhi (u : FloatBits) :
    writeReg (writeReg r (u.extractLsb' 0 32) .flo) (u.extractLsb' 32 32) .fhi = { r with f := u } := by
  simp only [writeReg, float_low_half, float_of_halves]

theorem withinRow_qbyte (q : Byte) (hi : .qbyte ∈ writes i) : WithinRow i r { r with qbyte := q } :=
  writeReg_qbyte_of_byte r q ▸ withinRow_writeReg i r _ hi

theorem withinRow_f (u : FloatBits) (hlo : .flo ∈ writes i) (hhi : .fhi ∈ writes i) : WithinRow i r { r with f := u } :=
  writeReg_flo_fhi r u ▸ (withinRow_writeReg i r _ hlo).trans (withinRow_writeReg i _ _ hhi)

end Updates

/-- R79: `BOUNDS` writes `INB`. -/
theorem withinRow_writeInb (inside : Bool) (r : Regs) : WithinRow .bounds r (writeInb inside r) where
  window _ _ hs := readReg_of_status_fields r r.errLast r.errFirst inside r.nan hs
  inb hb := absurd rfl hb
  nanKept _ _ := writeInb_nan inside r
  nanSticky hn := absurd hn (by decide)

/-- R72: `CLEAR` clears `NAN` and `ERR_FIRST`. -/
theorem withinRow_clearSticky (r : Regs) : WithinRow .clear r (clearSticky r) where
  window _ _ hs := readReg_of_status_fields r r.errLast 0 r.inb false hs
  inb _ := clearSticky_inb r
  nanKept _ hc := absurd rfl hc
  nanSticky hn := absurd hn (by decide)

/-! ### How a command ends within its row -/

section Endings

variable {i : Instr} {s t : State}

theorem withinRow_of_raiseError {e : ErrorCode} (h : raiseError e s = .next t) : WithinRow i s.regs t.regs := by
  obtain rfl := (raiseError_next_iff e s t).1 h
  exact withinRow_recordError i s.regs e

theorem withinRow_of_succeed {r : Regs} (h : succeed r s = .next t) (hr : WithinRow i s.regs r) :
    WithinRow i s.regs t.regs := by
  obtain rfl := (succeed_next_iff r s t).1 h
  exact hr.trans (withinRow_recordSuccess i r)

theorem withinRow_of_finishByte {q : Byte × Bool} (h : finishByte q s = .next t) (hi : .qbyte ∈ writes i)
    (hn : setsNan i = true) : WithinRow i s.regs t.regs :=
  withinRow_of_succeed h ((withinRow_qbyte i s.regs q.1 hi).trans (withinRow_stickyNan i _ q.2 hn))

theorem withinRow_of_finishFloat {v : F64} (h : finishFloat v s = .next t) (hlo : .flo ∈ writes i)
    (hhi : .fhi ∈ writes i) : WithinRow i s.regs t.regs :=
  withinRow_of_succeed h (withinRow_f i s.regs v.bits hlo hhi)

end Endings

/-- R58, R18, R19: every command stays within its row. -/
theorem withinRow_of_exec {i : Instr} {s t : State} (h : exec i s = .next t) : WithinRow i s.regs t.regs := by
  cases i with
  | nop => exact withinRow_of_succeed h (.of_window rfl rfl fun _ _ _ => rfl)
  | clear => exact withinRow_of_succeed h (withinRow_clearSticky s.regs)
  | bounds => exact withinRow_of_succeed h (withinRow_writeInb _ s.regs)
  | setn | setdim =>
    simp only [exec, execSetn, execSetdim] at h
    split at h
    · exact withinRow_of_raiseError h
    · exact withinRow_of_succeed h (withinRow_order _ s.regs _ (by decide))
  | d2xy =>
    simp only [exec, execD2xy] at h
    split at h
    · exact withinRow_of_raiseError h
    · exact withinRow_of_succeed h (withinRow_writeReg _ s.regs _ (a := .coord) (by decide))
  | xy2d =>
    simp only [exec, execXy2d] at h
    split at h
    · exact withinRow_of_raiseError h
    · exact withinRow_of_succeed h (withinRow_writeReg _ s.regs _ (a := .dist) (by decide))
  | qh | qc | ql | qa | premul => exact withinRow_of_finishByte h (by decide) rfl
  | unpremul =>
    simp only [exec, execUnpremul] at h
    split at h
    · exact withinRow_of_finishFloat h (by decide) (by decide)
    · exact withinRow_of_finishFloat h (by decide) (by decide)
  | dqh | dqc | dql | nalpha => exact withinRow_of_finishFloat h (by decide) (by decide)

/-- Settles O36. -/
theorem commandsWriteOnlyTheirRegisters : Obligations.CommandsWriteOnlyTheirRegisters := by
  unfold Obligations.CommandsWriteOnlyTheirRegisters
  intro i s t h
  obtain ⟨hwindow, hinb, hkept, hsticky⟩ := withinRow_of_exec h
  exact ⟨hwindow, hinb, hkept, hsticky⟩

/-! ### The pseudo-statements -/

/-- R26, R30: the word of two halves that `COORD` and `NATIVE` hold, as a shift and an or. -/
theorem append_eq_shift_or (hi lo : BitVec 16) : (hi ++ lo : Word) = hi.setWidth 32 <<< 16 ||| lo.setWidth 32 := by
  rw [← BitVec.setWidth_append_eq_shiftLeft_setWidth_or, BitVec.setWidth_eq]

/-- R63: a `WR` to a read-write register stores its word there. -/
theorem serveAccess_wrAccess (s : State) (v : Word) {a : RegName} (hr : s.inReset = false) (ha : readWrite a = true) :
    serveAccess (wrAccess s.platform a v) s = .next (withRegs s (writeReg s.regs v a)) :=
  serveAccess_write_readWrite s v hr ha

/-- R64: the two accesses of `WRF` leave `F` equal to the pattern. -/
theorem serveAccess_wrf (s : State) (b : FloatBits) (hr : s.inReset = false) :
    ∃ t, serveAccess (wrAccess s.platform .flo (b.extractLsb' 0 32)) s = .next t ∧
      serveAccess (wrAccess s.platform .fhi (b.extractLsb' 32 32)) t = .next (withRegs s { s.regs with f := b }) := by
  refine ⟨_, serveAccess_wrAccess s _ hr rfl, ?_⟩
  rw [← writeReg_flo_fhi s.regs b]
  exact serveAccess_wrAccess (withRegs s (writeReg s.regs (b.extractLsb' 0 32) .flo)) _ hr rfl

/-- Settles O51. -/
theorem pseudoStatementsWriteTheirRegisters : Obligations.PseudoStatementsWriteTheirRegisters := by
  unfold Obligations.PseudoStatementsWriteTheirRegisters
  intro s hr
  refine ⟨fun b => ?_, fun x y => ⟨_, rfl, ?_⟩, fun nc na => ⟨_, rfl, ?_⟩, ⟨_, rfl, ?_⟩⟩
  · obtain ⟨t, hlo, hhi⟩ := serveAccess_wrf s b hr
    exact ⟨_, _, t, rfl, hlo, hhi⟩
  · rw [← append_eq_shift_or]
    exact serveAccess_wrAccess s (y ++ x) hr rfl
  · rw [← append_eq_shift_or]
    exact serveAccess_wrAccess s (na ++ nc) hr rfl
  · exact serveAccess_read_register s .status hr

end Sys2Proof.Machine
end

section
/-!
PROOFS. How the control and curve commands end (`40_curve.md` sections 2 to 4): `NOP`, `CLEAR`, `SETN`, `SETDIM`, `D2XY`, `XY2D` and
`BOUNDS` (O4 to O8, O10).
-/

namespace Sys2Proof.Machine

open Sys2Proof.Claims

/-! ### The two endings, in the words of the statements -/

/-- R102: the error procedure leaves the state the statements call failed. -/
theorem raiseError_eq_failedWith (e : ErrorCode) (s : State) : raiseError e s = .next (failedWith (errorNumber e) s) := rfl

/-- R104: success leaves the new registers with `ERR_LAST = 0`. -/
theorem succeed_eq_withRegs (r : Regs) (s : State) : succeed r s = .next (withRegs s { r with errLast := 0 }) := rfl

/-! ### `NOP` and `CLEAR` -/

/-- Settles O4. -/
theorem nopClearsOnlyErrLast : Obligations.NopClearsOnlyErrLast :=
  ⟨rfl, fun s => succeed_eq_withRegs s.regs s⟩

/-- R60: a word whose reserved bits are not 0 is no command's. -/
theorem ne_encode_of_rsvField_ne {w : Word} (h : rsvField w ≠ 0) (i : Instr) : w ≠ encode i := by
  rintro rfl
  exact h (rsvField_encode i)

/-- Settles O5. -/
theorem clearZeroesErrorsAndNan : Obligations.ClearZeroesErrorsAndNan := by
  refine ⟨rfl, fun s => succeed_eq_withRegs (clearSticky s.regs) s, fun rsv s hrsv => ?_⟩
  refine runCommand_of_ne_encode (ne_encode_of_rsvField_ne ?_) s
  rwa [rsvField, command_high_bits]

/-! ### `SETN` -/

/-- R73: every legal order passes the check of `SETN`. -/
theorem setn_accepts_of_legalOrder {v : Nat} (h : LegalOrder v) : ¬ (!isPow2 v || decide (Config.orderMax < v)) = true := by
  obtain ⟨k, hk, rfl⟩ := h
  have hpow : isPow2 (2 ^ k) = true := (isPow2_iff _).2 ⟨k, rfl⟩
  have hmax : 2 ^ k ≤ Config.orderMax := Nat.pow_le_pow_right (by decide) hk
  simp [hpow, hmax]

/-- R21: `ORDER` keeps a legal order unchanged. -/
theorem toNat_ofNat_of_legalOrder {v : Nat} (h : LegalOrder v) : (BitVec.ofNat 17 v).toNat = v := by
  obtain ⟨k, hk, rfl⟩ := h
  rw [BitVec.toNat_ofNat, Nat.mod_eq_of_lt (Nat.pow_lt_pow_right (by decide) (by omega))]

/-- Settles O6: the check of `SETN` passes exactly the legal orders. -/
theorem setnInstallsPowersOfTwo : Obligations.SetnInstallsPowersOfTwo :=
  ⟨rfl,
    fun _ hlegal => ⟨_, toNat_ofNat_of_legalOrder hlegal,
      (if_neg (setn_accepts_of_legalOrder hlegal)).trans (succeed_eq_withRegs _ _)⟩,
    fun _ hillegal => (if_pos (by_contra fun haccepts => hillegal (legalOrder_of_setn_accepts haccepts))).trans
      (raiseError_eq_failedWith _ _)⟩

/-! ### `SETDIM` -/

/-- R68: the loop of `npot`, begun at a power of two that no smaller one makes needless, ends at the smallest that is at least `m`. -/
theorem npotLoop_smallest (k j m : Nat) (hm : m ≤ 2 ^ (j + k)) (hj : ∀ i, m ≤ 2 ^ i → j ≤ i) :
    SmallestPowerAtLeast (npotLoop k (2 ^ j) m) m := by
  induction k generalizing j with
  | zero => exact ⟨j, rfl, hm, hj⟩
  | succ k ih =>
    unfold npotLoop
    split
    case isFalse hge => exact ⟨j, rfl, not_lt.1 hge, hj⟩
    case isTrue hlt =>
      rw [← Nat.pow_succ']
      refine ih (j + 1) (by rwa [Nat.add_right_comm]) fun i hi => ?_
      exact (Nat.pow_lt_pow_iff_right (by decide)).1 (hlt.trans_le hi)

/-- R68: `npot` over all the sizes of an image. -/
theorem npot_smallest {m : Nat} (h : m ≤ Config.dimMax) : SmallestPowerAtLeast (npot m) m :=
  npotLoop_smallest 16 0 m (h.trans (by decide)) fun _ _ => Nat.zero_le _

/-- R74: `SETDIM` on an image that is not too large. -/
theorem exec_setdim_of_le {s : State} (hw : s.regs.width.toNat ≤ Config.dimMax) (hh : s.regs.height.toNat ≤ Config.dimMax) :
    exec .setdim s = .next (withRegs s
      { s.regs with order := BitVec.ofNat 17 (npot (max s.regs.width.toNat s.regs.height.toNat)), errLast := 0 }) :=
  (if_neg (not_or.2 ⟨not_lt.2 hw, not_lt.2 hh⟩)).trans (succeed_eq_withRegs _ s)

/-- R74: `SETDIM` on an image that is too large. -/
theorem exec_setdim_of_lt {s : State} (h : Config.dimMax < s.regs.width.toNat ∨ Config.dimMax < s.regs.height.toNat) :
    exec .setdim s = .next (failedWith 3 s) :=
  (if_pos h).trans (raiseError_eq_failedWith _ s)

/-- Settles O7. -/
theorem setdimDerivesSmallestOrder : Obligations.SetdimDerivesSmallestOrder := by
  refine ⟨rfl, fun s hw hh => ⟨_, ?_, exec_setdim_of_le hw hh⟩, fun s => exec_setdim_of_lt⟩
  rw [toNat_ofNat_of_legalOrder (legalOrder_npot _)]
  exact npot_smallest (max_le hw hh)

/-! ### `D2XY` and `XY2D` -/

/-- R76: `D2XY` of a distance on the curve. -/
theorem exec_d2xy_of_lt {s : State} (h : s.regs.dist.toNat < s.regs.order.toNat * s.regs.order.toNat) :
    exec .d2xy s = .next (withRegs s
      { s.regs with coord := packedCoord (hilbertD2xy s.regs.order.toNat s.regs.dist.toNat), errLast := 0 }) :=
  (if_neg (not_le.2 h)).trans (succeed_eq_withRegs _ s)

/-- R76: `D2XY` of a distance past the end of the curve. -/
theorem exec_d2xy_of_le {s : State} (h : s.regs.order.toNat * s.regs.order.toNat ≤ s.regs.dist.toNat) :
    exec .d2xy s = .next (failedWith 4 s) :=
  (if_pos h).trans (raiseError_eq_failedWith _ s)

/-- Settles O8. -/
theorem d2xyMapsDistanceToCoordinate : Obligations.D2xyMapsDistanceToCoordinate :=
  ⟨rfl, fun _ => exec_d2xy_of_lt, fun _ => exec_d2xy_of_le⟩

/-- R77: `XY2D` of a coordinate of the grid. -/
theorem exec_xy2d_of_lt {s : State} (hx : s.regs.coordX < s.regs.order.toNat) (hy : s.regs.coordY < s.regs.order.toNat) :
    exec .xy2d s = .next (withRegs s
      { s.regs with
        dist := BitVec.ofNat 32 (hilbertXy2d s.regs.order.toNat s.regs.coordX s.regs.coordY), errLast := 0 }) :=
  (if_neg (not_or.2 ⟨not_le.2 hx, not_le.2 hy⟩)).trans (succeed_eq_withRegs _ s)

/-- R77: `XY2D` of a coordinate outside the grid. -/
theorem exec_xy2d_of_le {s : State} (h : s.regs.order.toNat ≤ s.regs.coordX ∨ s.regs.order.toNat ≤ s.regs.coordY) :
    exec .xy2d s = .next (failedWith 5 s) :=
  (if_pos h).trans (raiseError_eq_failedWith _ s)

/-! ### `BOUNDS` -/

/-- R79: whether the coordinate of `COORD` lies in the image. -/
def insideImage (r : Regs) : Bool := decide (r.coordX < r.width.toNat ∧ r.coordY < r.height.toNat)

/-- R79: `BOUNDS` from every state. -/
theorem exec_bounds (s : State) :
    exec .bounds s = .next (withRegs s { s.regs with inb := insideImage s.regs, errLast := 0 }) :=
  succeed_eq_withRegs (writeInb (insideImage s.regs) s.regs) s

/-- R79: a half of `COORD` extended with zeros compares as the number it holds. -/
theorem setWidth_lt_iff (x : BitVec 16) (w : Word) : x.setWidth 32 < w ↔ x.toNat < w.toNat := by
  rw [BitVec.lt_def, BitVec.toNat_setWidth_of_le (by decide)]

/-- Settles O10. -/
theorem boundsComparesWithTheImage : Obligations.BoundsComparesWithTheImage := by
  refine ⟨rfl, fun s => ⟨insideImage s.regs, ?_, exec_bounds s⟩⟩
  rw [setWidth_lt_iff, setWidth_lt_iff]
  exact decide_eq_true_iff

end Sys2Proof.Machine
end

section
/-!
PROOFS. The curve itself (`40_curve.md` sections 1 and 4). Each loop makes one quadrant step per pass: that of `hilbert_d2xy` puts the
point of a quarter into its quadrant, that of `hilbert_xy2d` takes it out again. From the two recursions on the order that follow:
the four quarters (O11), the ends of the curve (O12), the bijection (O13) and the neighbours (O14).
-/

namespace Sys2Proof.Machine

open Sys2Proof.Claims

/-! ### The quadrant step -/

/-- R70: the column bit `rx` of the quadrant that the low two bits of `t` name. -/
def quadrantX (t : Nat) : Nat := t / 2 % 2

/-- R70: the row bit `ry` of the quadrant that the low two bits of `t` name. -/
def quadrantY (t : Nat) : Nat := (t + t / 2) % 2

/-- R71: the number of a quadrant, from its two bits. -/
def quadrantIndex (rx ry : Nat) : Nat := (3 * rx) ^^^ ry

/-- R70: a point of a square of side `h`, turned and moved to the quadrant that `t` names. -/
def place (h t : Nat) (p : Nat × Nat) : Nat × Nat :=
  ((rot h p.1 p.2 (quadrantX t) (quadrantY t)).1 + h * quadrantX t,
    (rot h p.1 p.2 (quadrantX t) (quadrantY t)).2 + h * quadrantY t)

theorem quadrantX_lt (t : Nat) : quadrantX t < 2 := Nat.mod_lt _ (by decide)
theorem quadrantY_lt (t : Nat) : quadrantY t < 2 := Nat.mod_lt _ (by decide)

theorem quadrantX_of_lt {q : Nat} (h : q < 4) : quadrantX q = q / 2 := by
  interval_cases q <;> rfl

theorem quadrantY_of_lt {q : Nat} (h : q < 4) : quadrantY q = if q = 0 ∨ q = 3 then 0 else 1 := by
  interval_cases q <;> rfl

/-- The quadrants of R70 are numbered as R71 numbers them. -/
theorem quadrantIndex_of_bits {q : Nat} (h : q < 4) : quadrantIndex (quadrantX q) (quadrantY q) = q := by
  interval_cases q <;> rfl

/-- R71: the number of a quadrant gives back its bits. -/
theorem bits_of_quadrantIndex {rx ry : Nat} (hx : rx < 2) (hy : ry < 2) :
    quadrantIndex rx ry < 4 ∧ quadrantX (quadrantIndex rx ry) = rx ∧ quadrantY (quadrantIndex rx ry) = ry := by
  interval_cases rx <;> interval_cases ry <;> decide

/-- R70: only the low two bits of `t` choose the quadrant. -/
theorem place_mod_four (h t : Nat) (p : Nat × Nat) : place h (t % 4) p = place h t p := by
  have hx : quadrantX (t % 4) = quadrantX t := by unfold quadrantX; omega
  have hy : quadrantY (t % 4) = quadrantY t := by unfold quadrantY; omega
  rw [place, hx, hy, place]

/-- R70: the first quarter is mirrored at the diagonal. -/
theorem place_zero (h : Nat) (p : Nat × Nat) : place h 0 p = (p.2, p.1) := by simp [place, rot, quadrantX, quadrantY]

/-- R70: the second quarter is moved up. -/
theorem place_one (h : Nat) (p : Nat × Nat) : place h 1 p = (p.1, p.2 + h) := by simp [place, rot, quadrantX, quadrantY]

/-- R70: the third quarter is moved up and to the right. -/
theorem place_two (h : Nat) (p : Nat × Nat) : place h 2 p = (p.1 + h, p.2 + h) := by
  simp [place, rot, quadrantX, quadrantY]

/-- R70: the fourth quarter is mirrored at the other diagonal and moved to the right. -/
theorem place_three (h : Nat) (p : Nat × Nat) : place h 3 p = (h - 1 - p.2 + h, h - 1 - p.1) := by
  simp [place, rot, quadrantX, quadrantY]

/-- R70: the placed point lies in its quadrant. -/
theorem place_lt {h : Nat} {p : Nat × Nat} (t : Nat) (hx : p.1 < h) (hy : p.2 < h) :
    (place h t p).1 < 2 * h ∧ (place h t p).2 < 2 * h := by
  obtain ⟨hrx, hry⟩ := rot_lt h p.1 p.2 (quadrantX t) (quadrantY t) hx hy
  have hqx : h * quadrantX t ≤ h * 1 := Nat.mul_le_mul_left h (Nat.le_of_lt_succ (quadrantX_lt t))
  have hqy : h * quadrantY t ≤ h * 1 := Nat.mul_le_mul_left h (Nat.le_of_lt_succ (quadrantY_lt t))
  unfold place
  constructor <;> dsimp only <;> omega

/-- R75 (c): turned and moved by the same quadrant step, two points stay as far apart as they were. -/
theorem manhattan_place {h : Nat} {p q : Nat × Nat} (t : Nat) (hp : p.1 < h ∧ p.2 < h) (hq : q.1 < h ∧ q.2 < h) :
    manhattan (place h t p) (place h t q) = manhattan p q := by
  unfold place manhattan rot
  split
  · split <;> dsimp only <;> omega
  · dsimp only
    omega

/-! ### The loop of `hilbert_d2xy` -/

/-- R70: one pass of the loop is a quadrant step by the low two bits of `t`. -/
theorem d2xyLoop_pass {n s : Nat} (k x y t : Nat) (h : s < n) :
    d2xyLoop n (k + 1) s x y t = d2xyLoop n k (2 * s) (place s t (x, y)).1 (place s t (x, y)).2 (t / 4) := by
  have hx : (t >>> 1) &&& 1 = quadrantX t := by rw [Nat.and_one_is_mod, Nat.shiftRight_one, quadrantX]
  have hy : (t &&& 1) ^^^ quadrantX t = quadrantY t := by
    have hlt : (t &&& 1) ^^^ quadrantX t < 2 ^ 1 :=
      Nat.xor_lt_two_pow (by rw [Nat.and_one_is_mod]; exact Nat.mod_lt t (by decide)) (quadrantX_lt t)
    rw [← Nat.mod_eq_of_lt hlt, pow_one, Nat.xor_mod_two_eq, Nat.and_one_is_mod]
    unfold quadrantX quadrantY
    omega
  rw [d2xyLoop_succ_of_lt n k s x y t h, hx, hy, Nat.shiftRight_eq_div_pow]
  rfl

theorem two_pow_succ_sq (k : Nat) : 2 ^ (k + 1) * 2 ^ (k + 1) = 4 * (2 ^ k * 2 ^ k) := by ring

/-- R70: on the order twice as large the loop makes one pass more, with the bits of `t` above those of the passes before. The two
runs are compared from the pass with `s = 2 ^ j` on; `i` passes remain on the smaller order. -/
theorem d2xyLoop_double {f f' i : Nat} (hf : i < f) (hf' : i ≤ f') (j x y t : Nat) :
    d2xyLoop (2 ^ (j + i + 1)) f (2 ^ j) x y t =
      place (2 ^ (j + i)) (t / (2 ^ i * 2 ^ i)) (d2xyLoop (2 ^ (j + i)) f' (2 ^ j) x y (t % (2 ^ i * 2 ^ i))) := by
  induction i generalizing f f' j x y t with
  | zero =>
    obtain ⟨f, rfl⟩ := Nat.exists_eq_add_of_lt hf
    rw [d2xyLoop_of_le (2 ^ (j + 0)) f' (2 ^ j) _ _ _ le_rfl, d2xyLoop_pass _ _ _ _ (Nat.pow_lt_pow_right (by decide) (by omega)),
      d2xyLoop_of_le _ _ _ _ _ _ (by rw [← Nat.pow_succ'])]
    simp
  | succ i ih =>
    obtain ⟨f, rfl⟩ : ∃ g, f = g + 1 := ⟨f - 1, by omega⟩
    obtain ⟨f', rfl⟩ : ∃ g, f' = g + 1 := ⟨f' - 1, by omega⟩
    have hlow : place (2 ^ j) (t % (4 * (2 ^ i * 2 ^ i))) (x, y) = place (2 ^ j) t (x, y) := by
      rw [← place_mod_four, Nat.mod_mul_right_mod, place_mod_four]
    rw [d2xyLoop_pass _ _ _ _ (Nat.pow_lt_pow_right (by decide) (by omega)),
      d2xyLoop_pass _ _ _ _ (Nat.pow_lt_pow_right (by decide) (by omega)), two_pow_succ_sq, hlow, Nat.mod_mul_right_div_self,
      ← Nat.div_div_eq_div_mul, ← Nat.pow_succ', show j + (i + 1) = j + 1 + i by omega]
    exact ih (by omega) (by omega) _ _ _ _

/-- The grid of twice the side has four quarters. -/
theorem quarter_lt {k d : Nat} (hd : d < 2 ^ (k + 1) * 2 ^ (k + 1)) : d / (2 ^ k * 2 ^ k) < 4 := by
  rw [two_pow_succ_sq, mul_comm] at hd
  exact Nat.div_lt_of_lt_mul hd

/-- R70: the one point of the curve of order 1. -/
theorem hilbertD2xy_one (d : Nat) : hilbertD2xy 1 d = (0, 0) := d2xyLoop_of_le 1 17 1 0 0 d le_rfl

/-- R70: the curve of twice the order is a quadrant step further. -/
theorem hilbertD2xy_double {k : Nat} (hk : k < 16) (d : Nat) :
    hilbertD2xy (2 ^ (k + 1)) d = place (2 ^ k) (d / (2 ^ k * 2 ^ k)) (hilbertD2xy (2 ^ k) (d % (2 ^ k * 2 ^ k))) := by
  have h := d2xyLoop_double (f := 17) (f' := 17) (i := k) (by omega) (by omega) 0 0 0 d
  rwa [Nat.zero_add, pow_zero] at h

/-- R70: the same for the distance `e` of quarter `q`. -/
theorem hilbertD2xy_quarter {k : Nat} (hk : k < 16) (q : Nat) {e : Nat} (he : e < 2 ^ k * 2 ^ k) :
    hilbertD2xy (2 ^ (k + 1)) (e + 2 ^ k * 2 ^ k * q) = place (2 ^ k) q (hilbertD2xy (2 ^ k) e) := by
  rw [hilbertD2xy_double hk, Nat.add_mul_div_left _ _ (by omega), Nat.div_eq_of_lt he, Nat.zero_add, Nat.add_mul_mod_self_left,
    Nat.mod_eq_of_lt he]

/-- R75 (a): the curve stays in its grid. -/
theorem hilbertD2xy_lt {k : Nat} (hk : k ≤ 16) (d : Nat) :
    (hilbertD2xy (2 ^ k) d).1 < 2 ^ k ∧ (hilbertD2xy (2 ^ k) d).2 < 2 ^ k := by
  induction k generalizing d with
  | zero => rw [pow_zero, hilbertD2xy_one]; decide
  | succ k ih =>
    obtain ⟨hx, hy⟩ := ih (by omega) (d % (2 ^ k * 2 ^ k))
    rw [hilbertD2xy_double hk, Nat.pow_succ']
    exact place_lt _ hx hy

/-- Settles O11: the quadrant step in the words of the statement. -/
theorem curveIsFourTurnedQuarters : Obligations.CurveIsFourTurnedQuarters := by
  unfold Obligations.CurveIsFourTurnedQuarters
  intro k d hk hd
  have hq := quarter_lt hd
  dsimp only
  rw [← Nat.pow_succ', hilbertD2xy_double hk, place, quadrantX_of_lt hq, quadrantY_of_lt hq]

/-! ### The ends of the curve and its first step -/

/-- R75: the curve starts at the origin. -/
theorem hilbertD2xy_zero {k : Nat} (hk : k ≤ 16) : hilbertD2xy (2 ^ k) 0 = (0, 0) := by
  induction k with
  | zero => exact hilbertD2xy_one 0
  | succ k ih => rw [hilbertD2xy_double (by omega), Nat.zero_mod, Nat.zero_div, ih (by omega), place_zero]

/-- R75: the curve ends at the other end of the bottom row. -/
theorem hilbertD2xy_last {k : Nat} (hk : k ≤ 16) : hilbertD2xy (2 ^ k) (2 ^ k * 2 ^ k - 1) = (2 ^ k - 1, 0) := by
  induction k with
  | zero => exact hilbertD2xy_one 0
  | succ k ih =>
    have hpos : 0 < 2 ^ k * 2 ^ k := Nat.mul_pos (Nat.two_pow_pos k) (Nat.two_pow_pos k)
    have hlast : 2 ^ (k + 1) * 2 ^ (k + 1) - 1 = 2 ^ k * 2 ^ k - 1 + 2 ^ k * 2 ^ k * 3 := by
      rw [two_pow_succ_sq]
      omega
    rw [hlast, hilbertD2xy_quarter (by omega) 3 (by omega), ih (by omega), place_three, Nat.pow_succ', Prod.mk.injEq]
    constructor <;> dsimp only <;> omega

/-- R75: each doubling of the order mirrors the first step at the diagonal. -/
theorem hilbertD2xy_first_step {k : Nat} (hk : k < 16) :
    hilbertD2xy (2 ^ (k + 1)) 1 = if k % 2 = 0 then (0, 1) else (1, 0) := by
  induction k with
  | zero =>
    have h := hilbertD2xy_quarter hk 1 (e := 0) (by decide)
    rwa [hilbertD2xy_zero (by decide), place_one] at h
  | succ k ih =>
    have hlt : 1 < 2 ^ (k + 1) * 2 ^ (k + 1) := by
      have := Nat.two_pow_pos k
      rw [two_pow_succ_sq]
      have := Nat.mul_pos this this
      omega
    have h := hilbertD2xy_quarter hk 0 hlt
    rw [Nat.mul_zero, Nat.add_zero, ih (by omega), place_zero] at h
    rw [h]
    obtain heven | hodd := Nat.mod_two_eq_zero_or_one k
    · rw [if_pos heven, if_neg (by omega)]
    · rw [if_neg (by omega), if_pos (by omega)]

/-- Settles O12. -/
theorem curveEndpointsAndFirstStep : Obligations.CurveEndpointsAndFirstStep := by
  unfold Obligations.CurveEndpointsAndFirstStep
  intro k hk
  refine ⟨hilbertD2xy_zero hk, fun _ => hilbertD2xy_last hk, fun hodd => ?_, fun heven hpos => ?_⟩
  all_goals
    obtain ⟨k, rfl⟩ : ∃ j, k = j + 1 := ⟨k - 1, by omega⟩
    rw [hilbertD2xy_first_step (by omega)]
  · exact if_pos (by omega)
  · exact if_neg (by omega)

/-! ### Neighbours -/

/-- R75 (c): where one quarter ends, the next one starts at a neighbour. -/
theorem manhattan_quarter_ends {h q : Nat} (hh : 0 < h) (hq : q < 3) :
    manhattan (place h q (h - 1, 0)) (place h (q + 1) (0, 0)) = 1 := by
  obtain rfl | rfl | rfl : q = 0 ∨ q = 1 ∨ q = 2 := by omega
  all_goals
    simp only [Nat.reduceAdd, place_zero, place_one, place_two, place_three, manhattan]
    omega

/-- R75 (c): a step within a quarter is a step of the curve of half the order; a step from one quarter to the next joins their ends. -/
theorem manhattan_hilbertD2xy_succ {k d : Nat} (hk : k ≤ 16) (hd : d + 1 < 2 ^ k * 2 ^ k) :
    manhattan (hilbertD2xy (2 ^ k) d) (hilbertD2xy (2 ^ k) (d + 1)) = 1 := by
  induction k generalizing d with
  | zero => exact absurd hd (by simp)
  | succ k ih =>
    have hpos : 0 < 2 ^ k * 2 ^ k := Nat.mul_pos (Nat.two_pow_pos k) (Nat.two_pow_pos k)
    have hsplit := Nat.mod_add_div d (2 ^ k * 2 ^ k)
    have hrest := Nat.mod_lt d hpos
    generalize d % (2 ^ k * 2 ^ k) = e at hsplit hrest
    generalize d / (2 ^ k * 2 ^ k) = q at hsplit
    subst hsplit
    rw [two_pow_succ_sq] at hd
    rw [hilbertD2xy_quarter (by omega) q hrest]
    rcases Nat.lt_or_ge (e + 1) (2 ^ k * 2 ^ k) with hin | hend
    · rw [Nat.add_right_comm, hilbertD2xy_quarter (by omega) q hin,
        manhattan_place q (hilbertD2xy_lt (by omega) e) (hilbertD2xy_lt (by omega) (e + 1))]
      exact ih (by omega) hin
    · obtain rfl : e = 2 ^ k * 2 ^ k - 1 := by omega
      have hnext : 2 ^ k * 2 ^ k - 1 + 2 ^ k * 2 ^ k * q + 1 = 0 + 2 ^ k * 2 ^ k * (q + 1) := by
        rw [Nat.mul_succ]
        omega
      have hq : q < 3 := by
        by_contra hge
        have := Nat.mul_le_mul_left (2 ^ k * 2 ^ k) (not_lt.1 hge)
        omega
      rw [hnext, hilbertD2xy_quarter (by omega) (q + 1) hpos, hilbertD2xy_last (by omega), hilbertD2xy_zero (by omega)]
      exact manhattan_quarter_ends (Nat.two_pow_pos k) hq

/-- Settles O14. -/
theorem curveStepsToANeighbour : Obligations.CurveStepsToANeighbour :=
  fun _ _ => manhattan_hilbertD2xy_succ

end Sys2Proof.Machine
end

section
/-!
PROOFS. The curve backwards (R71). The loop of `hilbert_xy2d` is a recursion on the order, its inverse is that of `hilbert_d2xy`, and so
the curve is a bijection (O13).
-/

namespace Sys2Proof.Machine

open Sys2Proof.Claims

/-! ### The loop of `hilbert_xy2d` -/

/-- The distance of the grid point `(x, y)` on the curve of order `2 ^ k`, by recursion on the order: the quadrant in front, then the
distance within the quarter, turned back (`hilbertXy2d_eq_gridDistance`). Bits of `x` and `y` from `k` up are not looked at. -/
def gridDistance : Nat → Nat → Nat → Nat
  | 0, _, _ => 0
  | k + 1, x, y =>
    let rx := x / 2 ^ k % 2
    let ry := y / 2 ^ k % 2
    let p := rot (2 ^ k) (x % 2 ^ k) (y % 2 ^ k) rx ry
    gridDistance k p.1 p.2 + 2 ^ k * 2 ^ k * quadrantIndex rx ry

theorem gridDistance_succ (k x y : Nat) :
    gridDistance (k + 1) x y =
      gridDistance k (rot (2 ^ k) (x % 2 ^ k) (y % 2 ^ k) (x / 2 ^ k % 2) (y / 2 ^ k % 2)).1
          (rot (2 ^ k) (x % 2 ^ k) (y % 2 ^ k) (x / 2 ^ k % 2) (y / 2 ^ k % 2)).2 +
        2 ^ k * 2 ^ k * quadrantIndex (x / 2 ^ k % 2) (y / 2 ^ k % 2) := rfl

/-- Only the low `k` bits of a coordinate count. -/
theorem gridDistance_mod (k x y : Nat) : gridDistance k (x % 2 ^ k) (y % 2 ^ k) = gridDistance k x y := by
  cases k with
  | zero => rfl
  | succ k => simp only [gridDistance_succ, pow_succ, Nat.mod_mul_right_mod, Nat.mod_mul_right_div_self, Nat.mod_mod]

/-- R71: the test of a bit of a coordinate. -/
theorem ite_and_two_pow (x j : Nat) : (if x &&& 2 ^ j ≠ 0 then 1 else 0) = x / 2 ^ j % 2 := by
  rw [← Nat.toNat_testBit, Nat.and_two_pow]
  cases x.testBit j <;> simp

/-- R71: one pass of the loop, with `s = 2 ^ j`. -/
theorem xy2dLoop_pass (n k j x y d : Nat) :
    xy2dLoop n (k + 1) (2 ^ j) x y d =
      xy2dLoop n k (2 ^ j / 2) (rot n x y (x / 2 ^ j % 2) (y / 2 ^ j % 2)).1 (rot n x y (x / 2 ^ j % 2) (y / 2 ^ j % 2)).2
        (d + 2 ^ j * 2 ^ j * quadrantIndex (x / 2 ^ j % 2) (y / 2 ^ j % 2)) := by
  rw [xy2dLoop, if_pos (Nat.two_pow_pos j), ite_and_two_pow, ite_and_two_pow, Nat.shiftRight_one]
  rfl

/-- R69, R71: turned in the whole grid of side `n`, the low bits of a coordinate are turned in their square of side `c`. -/
theorem rot_mod {c n x y : Nat} (hc : c ∣ n) (hx : x < n) (hy : y < n) (rx ry : Nat) :
    rot c (x % c) (y % c) rx ry = ((rot n x y rx ry).1 % c, (rot n x y rx ry).2 % c) := by
  obtain ⟨m, rfl⟩ := hc
  have hmirror : ∀ z, z < c * m → (c * m - 1 - z) % c = c - 1 - z % c := by
    intro z hz
    rw [Nat.sub_sub, Nat.sub_sub, Nat.add_comm 1, Nat.add_comm 1, Nat.mul_sub_mod hz]
  unfold rot
  split
  · split
    · rw [hmirror x hx, hmirror y hy]
    · rfl
  · rfl

/-- R71: from the pass with `2 ^ j / 2` on, the loop adds the distance on the curve of order `2 ^ j`. -/
theorem xy2dLoop_eq_gridDistance {a j f x y : Nat} (hj : j ≤ a) (hf : j ≤ f) (hx : x < 2 ^ a) (hy : y < 2 ^ a) (d : Nat) :
    xy2dLoop (2 ^ a) f (2 ^ j / 2) x y d = d + gridDistance j x y := by
  induction j generalizing f x y d with
  | zero => exact xy2dLoop_zero _ _ _ _ _
  | succ j ih =>
    obtain ⟨f, rfl⟩ : ∃ g, f = g + 1 := ⟨f - 1, by omega⟩
    obtain ⟨hrx, hry⟩ := rot_lt (2 ^ a) x y (x / 2 ^ j % 2) (y / 2 ^ j % 2) hx hy
    rw [Nat.pow_succ, Nat.mul_div_cancel _ (by decide), xy2dLoop_pass, ih (by omega) (by omega) hrx hry, gridDistance_succ,
      rot_mod (Nat.pow_dvd_pow 2 (by omega)) hx hy, gridDistance_mod]
    omega

/-- R71: the loop and the recursion agree on every order that `ORDER` can hold. -/
theorem hilbertXy2d_eq_gridDistance {k x y : Nat} (hk : k ≤ 16) (hx : x < 2 ^ k) (hy : y < 2 ^ k) :
    hilbertXy2d (2 ^ k) x y = gridDistance k x y := by
  rw [hilbertXy2d, Nat.shiftRight_one, xy2dLoop_eq_gridDistance le_rfl (by omega) hx hy, Nat.zero_add]

/-! ### The two directions undo each other -/

/-- The distance of a placed point: its quadrant in front of the distance within the quarter. -/
theorem gridDistance_place {k : Nat} {p : Nat × Nat} {q : Nat} (hq : q < 4) (hx : p.1 < 2 ^ k) (hy : p.2 < 2 ^ k) :
    gridDistance (k + 1) (place (2 ^ k) q p).1 (place (2 ^ k) q p).2 = gridDistance k p.1 p.2 + 2 ^ k * 2 ^ k * q := by
  obtain ⟨hrx, hry⟩ := rot_lt (2 ^ k) p.1 p.2 (quadrantX q) (quadrantY q) hx hy
  have hpos := Nat.two_pow_pos k
  have hbits : ∀ {r b : Nat}, r < 2 ^ k → b < 2 → (r + 2 ^ k * b) / 2 ^ k % 2 = b ∧ (r + 2 ^ k * b) % 2 ^ k = r := by
    intro r b hr hb
    rw [Nat.add_mul_div_left _ _ hpos, Nat.div_eq_of_lt hr, Nat.zero_add, Nat.add_mul_mod_self_left]
    exact ⟨Nat.mod_eq_of_lt hb, Nat.mod_eq_of_lt hr⟩
  obtain ⟨hdivx, hmodx⟩ := hbits hrx (quadrantX_lt q)
  obtain ⟨hdivy, hmody⟩ := hbits hry (quadrantY_lt q)
  rw [gridDistance_succ, place, hdivx, hmodx, hdivy, hmody, rot_rot _ _ _ _ _ hx hy, quadrantIndex_of_bits hq]

/-- R75 (a): a distance of the grid is the distance of its point. -/
theorem gridDistance_hilbertD2xy {k d : Nat} (hk : k ≤ 16) (hd : d < 2 ^ k * 2 ^ k) :
    gridDistance k (hilbertD2xy (2 ^ k) d).1 (hilbertD2xy (2 ^ k) d).2 = d := by
  induction k generalizing d with
  | zero => exact (Nat.lt_one_iff.1 hd).symm
  | succ k ih =>
    have hpos : 0 < 2 ^ k * 2 ^ k := Nat.mul_pos (Nat.two_pow_pos k) (Nat.two_pow_pos k)
    have hq : d / (2 ^ k * 2 ^ k) < 4 := quarter_lt hd
    obtain ⟨hx, hy⟩ := hilbertD2xy_lt (k := k) (by omega) (d % (2 ^ k * 2 ^ k))
    rw [hilbertD2xy_double (by omega), gridDistance_place hq hx hy, ih (by omega) (Nat.mod_lt _ hpos), Nat.mod_add_div]

/-- R75 (a): every point has a distance in the range of its grid. -/
theorem gridDistance_lt (k x y : Nat) : gridDistance k x y < 2 ^ k * 2 ^ k := by
  induction k generalizing x y with
  | zero => exact Nat.one_pos
  | succ k ih =>
    obtain ⟨hindex, -, -⟩ := bits_of_quadrantIndex (Nat.mod_lt (x / 2 ^ k) two_pos) (Nat.mod_lt (y / 2 ^ k) two_pos)
    have hquarter := Nat.mul_le_mul_left (2 ^ k * 2 ^ k) (Nat.le_of_lt_succ hindex)
    have hrest := ih (rot (2 ^ k) (x % 2 ^ k) (y % 2 ^ k) (x / 2 ^ k % 2) (y / 2 ^ k % 2)).1
      (rot (2 ^ k) (x % 2 ^ k) (y % 2 ^ k) (x / 2 ^ k % 2) (y / 2 ^ k % 2)).2
    rw [gridDistance_succ, two_pow_succ_sq]
    omega

/-- R75 (a): the curve at the distance of a point is the point. -/
theorem hilbertD2xy_gridDistance {k x y : Nat} (hk : k ≤ 16) (hx : x < 2 ^ k) (hy : y < 2 ^ k) :
    hilbertD2xy (2 ^ k) (gridDistance k x y) = (x, y) := by
  induction k generalizing x y with
  | zero =>
    rw [Nat.lt_one_iff.1 hx, Nat.lt_one_iff.1 hy]
    exact hilbertD2xy_one 0
  | succ k ih =>
    have hpos := Nat.two_pow_pos k
    obtain ⟨-, hindexX, hindexY⟩ := bits_of_quadrantIndex (Nat.mod_lt (x / 2 ^ k) two_pos) (Nat.mod_lt (y / 2 ^ k) two_pos)
    have hmodx : x % 2 ^ k < 2 ^ k := Nat.mod_lt x hpos
    have hmody : y % 2 ^ k < 2 ^ k := Nat.mod_lt y hpos
    obtain ⟨hrx, hry⟩ := rot_lt (2 ^ k) _ _ (x / 2 ^ k % 2) (y / 2 ^ k % 2) hmodx hmody
    have hbit : ∀ {z}, z < 2 ^ (k + 1) → z / 2 ^ k % 2 = z / 2 ^ k := fun hz =>
      Nat.mod_eq_of_lt (Nat.div_lt_of_lt_mul hz)
    rw [gridDistance_succ, hilbertD2xy_quarter (by omega) _ (gridDistance_lt _ _ _), ih (by omega) hrx hry, place, hindexX, hindexY,
      rot_rot _ _ _ _ _ hmodx hmody, hbit hx, hbit hy, Nat.mod_add_div, Nat.mod_add_div]

/-- Settles O13: the distance of a point is the one distance at which the curve meets it. -/
theorem curveIsABijection : Obligations.CurveIsABijection := by
  unfold Obligations.CurveIsABijection
  refine fun k hk => ⟨fun d _ => hilbertD2xy_lt hk d, fun x y hx hy => ⟨gridDistance k x y, ?_, ?_⟩⟩
  · exact ⟨gridDistance_lt k x y, hilbertD2xy_gridDistance hk hx hy⟩
  · rintro d ⟨hd, hpoint⟩
    have hdist := gridDistance_hilbertD2xy hk hd
    rw [hpoint] at hdist
    exact hdist.symm

/-! ### The same on the orders of R21 -/

section
variable {n : Nat} (hn : LegalOrder n)
include hn

/-- R21: the largest order is 65536. -/
theorem legalOrder_le : n ≤ 2 ^ 16 := by
  obtain ⟨k, hk, rfl⟩ := hn
  exact Nat.pow_le_pow_right (by decide) hk

/-- R75 (a): the curve stays in its grid. -/
theorem hilbertD2xy_lt_order (d : Nat) : (hilbertD2xy n d).1 < n ∧ (hilbertD2xy n d).2 < n := by
  obtain ⟨k, hk, rfl⟩ := hn
  exact hilbertD2xy_lt hk d

/-- R75 (a): the distance of a point of the grid is in range. -/
theorem hilbertXy2d_lt {x y : Nat} (hx : x < n) (hy : y < n) : hilbertXy2d n x y < n * n := by
  obtain ⟨k, hk, rfl⟩ := hn
  rw [hilbertXy2d_eq_gridDistance hk hx hy]
  exact gridDistance_lt k x y

/-- R78: the distance of the point of a distance. -/
theorem hilbertXy2d_hilbertD2xy {d : Nat} (hd : d < n * n) : hilbertXy2d n (hilbertD2xy n d).1 (hilbertD2xy n d).2 = d := by
  obtain ⟨k, hk, rfl⟩ := hn
  obtain ⟨hx, hy⟩ := hilbertD2xy_lt hk d
  rw [hilbertXy2d_eq_gridDistance hk hx hy, gridDistance_hilbertD2xy hk hd]

/-- R78: the point of the distance of a point. -/
theorem hilbertD2xy_hilbertXy2d {x y : Nat} (hx : x < n) (hy : y < n) : hilbertD2xy n (hilbertXy2d n x y) = (x, y) := by
  obtain ⟨k, hk, rfl⟩ := hn
  rw [hilbertXy2d_eq_gridDistance hk hx hy, hilbertD2xy_gridDistance hk hx hy]

end

end Sys2Proof.Machine
end

section
/-!
PROOFS. The curve commands on the curve (`40_curve.md` sections 3 and 4): `XY2D` writes the whole distance (O9), `D2XY` and `XY2D` undo
each other (O15), and after `SETDIM` the visits find the image, each point once (O16).
-/

namespace Sys2Proof.Machine

open Sys2Proof.Claims

/-! ### What the registers hold -/

/-- R25: `DIST` has room for every distance of a legal order. -/
theorem toNat_ofNat_of_lt_sq {n d : Nat} (hn : LegalOrder n) (hd : d < n * n) : (BitVec.ofNat 32 d).toNat = d := by
  have hsq : n * n ≤ 2 ^ 16 * 2 ^ 16 := Nat.mul_le_mul (legalOrder_le hn) (legalOrder_le hn)
  rw [BitVec.toNat_ofNat, Nat.mod_eq_of_lt (by omega)]

/-- R26: the coordinate word keeps both coordinates of a point. -/
theorem packedCoord_halves {p : Nat × Nat} (hx : p.1 < 2 ^ 16) (hy : p.2 < 2 ^ 16) :
    ((packedCoord p).extractLsb' 0 16).toNat = p.1 ∧ ((packedCoord p).extractLsb' 16 16).toNat = p.2 := by
  rw [packedCoord, word_low_half, word_high_half, BitVec.toNat_ofNat, BitVec.toNat_ofNat]
  exact ⟨Nat.mod_eq_of_lt hx, Nat.mod_eq_of_lt hy⟩

/-- R26: a coordinate word is made of its two coordinates. -/
theorem packedCoord_of_halves (w : Word) : packedCoord ((w.extractLsb' 0 16).toNat, (w.extractLsb' 16 16).toNat) = w := by
  rw [packedCoord, BitVec.ofNat_toNat, BitVec.ofNat_toNat, BitVec.setWidth_eq, BitVec.setWidth_eq, word_of_halves]

/-- R26: the coordinate word of a point of the curve keeps the point. -/
theorem packedCoord_hilbertD2xy {n : Nat} (hn : LegalOrder n) (d : Nat) :
    ((packedCoord (hilbertD2xy n d)).extractLsb' 0 16).toNat = (hilbertD2xy n d).1 ∧
    ((packedCoord (hilbertD2xy n d)).extractLsb' 16 16).toNat = (hilbertD2xy n d).2 := by
  obtain ⟨hx, hy⟩ := hilbertD2xy_lt_order hn d
  exact packedCoord_halves (hx.trans_le (legalOrder_le hn)) (hy.trans_le (legalOrder_le hn))

/-! ### `XY2D`, and the round trips -/

/-- Settles O9: the distance is below `n²`, for which `DIST` has room. -/
theorem xy2dMapsCoordinateToDistance : Obligations.Xy2dMapsCoordinateToDistance :=
  ⟨rfl,
    fun _ hn hx hy => ⟨_, toNat_ofNat_of_lt_sq hn (hilbertXy2d_lt hn hx hy), exec_xy2d_of_lt hx hy⟩,
    fun _ => exec_xy2d_of_le⟩

/-- R78: from a distance to its coordinate and back. -/
theorem d2xy_then_xy2d {s : State} (hn : LegalOrder s.regs.order.toNat)
    (hd : s.regs.dist.toNat < s.regs.order.toNat * s.regs.order.toNat) :
    ∃ t u, exec .d2xy s = .next t ∧ exec .xy2d t = .next u ∧
      t.regs.errLast = 0 ∧ u.regs.errLast = 0 ∧ u.regs.dist = s.regs.dist := by
  obtain ⟨hx, hy⟩ := hilbertD2xy_lt_order hn s.regs.dist.toNat
  obtain ⟨hcoordX, hcoordY⟩ := packedCoord_hilbertD2xy hn s.regs.dist.toNat
  refine ⟨_, _, exec_d2xy_of_lt hd, exec_xy2d_of_lt (hcoordX.trans_lt hx) (hcoordY.trans_lt hy), rfl, rfl, ?_⟩
  simp only [withRegs, Regs.coordX, Regs.coordY, hcoordX, hcoordY]
  rw [hilbertXy2d_hilbertD2xy hn hd, BitVec.ofNat_toNat, BitVec.setWidth_eq]

/-- R78: from a coordinate to its distance and back. -/
theorem xy2d_then_d2xy {s : State} (hn : LegalOrder s.regs.order.toNat)
    (hx : s.regs.coordX < s.regs.order.toNat) (hy : s.regs.coordY < s.regs.order.toNat) :
    ∃ t u, exec .xy2d s = .next t ∧ exec .d2xy t = .next u ∧
      t.regs.errLast = 0 ∧ u.regs.errLast = 0 ∧ u.regs.coord = s.regs.coord := by
  have hlt := hilbertXy2d_lt hn hx hy
  have hdist := toNat_ofNat_of_lt_sq hn hlt
  refine ⟨_, _, exec_xy2d_of_lt hx hy, exec_d2xy_of_lt (hdist.trans_lt hlt), rfl, rfl, ?_⟩
  simp only [withRegs, hdist]
  rw [hilbertD2xy_hilbertXy2d hn hx hy, Regs.coordX, Regs.coordY, packedCoord_of_halves]

/-- Settles O15. -/
theorem curveCommandsRoundTrip : Obligations.CurveCommandsRoundTrip :=
  ⟨fun _ => d2xy_then_xy2d, fun _ => xy2d_then_d2xy⟩

/-! ### The visits of an image -/

/-- R74: all that a `SETDIM` that succeeds can do: it installs a legal order that covers both axes, and keeps the axes. -/
theorem setdim_success {s t : State} (h : exec .setdim s = .next t) (he : t.regs.errLast = 0) :
    LegalOrder t.regs.order.toNat ∧ s.regs.width.toNat ≤ t.regs.order.toNat ∧ s.regs.height.toNat ≤ t.regs.order.toNat ∧
    t.regs.width = s.regs.width ∧ t.regs.height = s.regs.height := by
  by_cases hlarge : Config.dimMax < s.regs.width.toNat ∨ Config.dimMax < s.regs.height.toNat
  · rw [exec_setdim_of_lt hlarge, Host.Outcome.next.injEq] at h
    subst h
    exact absurd he (by simp [failedWith, withRegs])
  · obtain ⟨hw, hh⟩ := not_or.1 hlarge
    rw [exec_setdim_of_le (not_lt.1 hw) (not_lt.1 hh), Host.Outcome.next.injEq] at h
    subst h
    obtain ⟨-, -, hcovers, -⟩ := npot_smallest (max_le (not_lt.1 hw) (not_lt.1 hh))
    rw [← toNat_ofNat_of_legalOrder (legalOrder_npot _)] at hcovers
    exact ⟨legalOrder_ofNat (legalOrder_npot _), (le_max_left _ _).trans hcovers, (le_max_right _ _).trans hcovers, rfl, rfl⟩

/-- R81: the visit of a distance gives its point and whether that lies in the image. -/
theorem visit_eq {t : State} (hn : LegalOrder t.regs.order.toNat) {d : Nat} (hd : d < t.regs.order.toNat * t.regs.order.toNat) :
    visit t d = some (packedCoord (hilbertD2xy t.regs.order.toNat d),
      decide ((hilbertD2xy t.regs.order.toNat d).1 < t.regs.width.toNat ∧
        (hilbertD2xy t.regs.order.toNat d).2 < t.regs.height.toNat)) := by
  have hdist := toNat_ofNat_of_lt_sq hn hd
  obtain ⟨hcoordX, hcoordY⟩ := packedCoord_hilbertD2xy hn d
  rw [visit, exec_d2xy_of_lt (s := withRegs t { t.regs with dist := BitVec.ofNat 32 d }) (hdist.trans_lt hd)]
  simp only [exec_bounds, withRegs, insideImage, Regs.coordX, Regs.coordY, hdist, hcoordX, hcoordY, and_self, if_true]

/-- R81: the curve meets each point of a `w × h` corner of its grid once, so `w * h` distances in all. -/
theorem card_distances_inside {n w h : Nat} (hn : LegalOrder n) (hw : w ≤ n) (hh : h ≤ n) :
    ((Finset.range (n * n)).filter fun d => (hilbertD2xy n d).1 < w ∧ (hilbertD2xy n d).2 < h).card = w * h := by
  have hcorner : ∀ p ∈ Finset.range w ×ˢ Finset.range h, p.1 < w ∧ p.2 < h := by simp
  rw [show w * h = (Finset.range w ×ˢ Finset.range h).card by simp]
  refine Finset.card_nbij' (hilbertD2xy n) (fun p => hilbertXy2d n p.1 p.2) ?_ ?_ ?_ ?_
  · intro d hd
    simpa using (Finset.mem_filter.1 hd).2
  · intro p hp
    obtain ⟨hx, hy⟩ := hcorner p hp
    have hpoint := hilbertD2xy_hilbertXy2d hn (hx.trans_le hw) (hy.trans_le hh)
    rw [Finset.mem_coe, Finset.mem_filter, Finset.mem_range, hpoint]
    exact ⟨hilbertXy2d_lt hn (hx.trans_le hw) (hy.trans_le hh), hx, hy⟩
  · intro d hd
    exact hilbertXy2d_hilbertD2xy hn (Finset.mem_range.1 (Finset.mem_filter.1 hd).1)
  · intro p hp
    obtain ⟨hx, hy⟩ := hcorner p hp
    exact hilbertD2xy_hilbertXy2d hn (hx.trans_le hw) (hy.trans_le hh)

/-- R26: a point of the curve is known by its coordinate word. -/
theorem hilbertD2xy_eq_of_packedCoord {n d x y : Nat} (hn : LegalOrder n) (hx : x < n) (hy : y < n)
    (h : packedCoord (hilbertD2xy n d) = packedCoord (x, y)) : hilbertD2xy n d = (x, y) := by
  obtain ⟨hcoordX, hcoordY⟩ := packedCoord_hilbertD2xy hn d
  obtain ⟨hpairX, hpairY⟩ := packedCoord_halves (p := (x, y)) (hx.trans_le (legalOrder_le hn)) (hy.trans_le (legalOrder_le hn))
  rw [h] at hcoordX hcoordY
  exact Prod.ext (hcoordX.symm.trans hpairX) (hcoordY.symm.trans hpairY)

/-- Settles O16: each visit is that of the curve's point, and the curve is a bijection onto a grid that covers the image. -/
theorem inBoundsCountIsTheImageArea : Obligations.InBoundsCountIsTheImageArea := by
  unfold Obligations.InBoundsCountIsTheImageArea
  intro s t hexec herr
  obtain ⟨hn, hw, hh, hwidth, hheight⟩ := setdim_success hexec herr
  dsimp only
  have hvisit := fun d => visit_eq (d := d) hn
  rw [hwidth, hheight] at hvisit
  refine ⟨fun d hd => by rw [hvisit d hd]; rfl, ?_, fun x y hx hy => ?_⟩
  · rw [← card_distances_inside hn hw hh]
    refine congrArg List.length (List.filter_congr fun d hd => ?_)
    rw [hvisit d (List.mem_range.1 hd)]
    simp
  · have hxn := hx.trans_le hw
    have hyn := hy.trans_le hh
    have hpoint := hilbertD2xy_hilbertXy2d hn hxn hyn
    refine ⟨hilbertXy2d t.regs.order.toNat x y, ⟨hilbertXy2d_lt hn hxn hyn, ?_⟩, ?_⟩
    · rw [hvisit _ (hilbertXy2d_lt hn hxn hyn), hpoint, decide_eq_true ⟨hx, hy⟩]
    · rintro d ⟨hd, hseen⟩
      rw [hvisit d hd, Option.some.injEq, Prod.mk.injEq] at hseen
      obtain ⟨hcoord, -⟩ := hseen
      have hdist := hilbertXy2d_hilbertD2xy hn hd
      rw [hilbertD2xy_eq_of_packedCoord hn hxn hyn hcoord] at hdist
      exact hdist.symm

end Sys2Proof.Machine
end

section
/-!
PROOFS. The patterns of rounded values (R10): a representable value is read back from its pattern, and so is every result of a
multiplication, division or addition of finite values.
-/

namespace Sys2Proof.Machine

open Sys2Proof.Claims

theorem signedBits_toNat (neg : Bool) {m : Nat} (h : m < 2 ^ 63) : (signedBits neg m).toNat = neg.toNat * 2 ^ 63 + m := by
  rw [signedBits, BitVec.toNat_append, BitVec.toNat_ofNat, Nat.mod_eq_of_lt h, ← Nat.shiftLeft_add_eq_or_of_lt h,
    Nat.shiftLeft_eq, BitVec.toNat_ofBool]

theorem getLsbD_signedBits (neg : Bool) (m : Nat) : (signedBits neg m).getLsbD 63 = neg := by
  simp only [signedBits, BitVec.getLsbD_append, BitVec.getLsbD_ofBool]
  simp

section
variable (neg : Bool) {e f : Nat} (he : e < 2 ^ 11) (hf : f < 2 ^ 52)
include he hf

/-- The exponent and the fraction of a pattern that is put together from them. -/
theorem exponentField_signedBits : exponentField (signedBits neg (f + e * 2 ^ 52)) = e := by
  rw [exponentField, BitVec.extractLsb'_toNat, signedBits_toNat neg (by omega), Nat.shiftRight_eq_div_pow]
  omega

theorem fractionField_signedBits : fractionField (signedBits neg (f + e * 2 ^ 52)) = f := by
  rw [fractionField, BitVec.extractLsb'_toNat, signedBits_toNat neg (by omega), Nat.shiftRight_eq_div_pow]
  omega

end

/-- The value of a subnormal pattern. -/
theorem f64bits_subnormal (neg : Bool) {f : Nat} (hf : f < 2 ^ 52) : f64bits (signedBits neg f) = .fin neg f := by
  have he := exponentField_signedBits neg (e := 0) (by decide) hf
  have hfrac := fractionField_signedBits neg (e := 0) (by decide) hf
  rw [Nat.zero_mul, Nat.add_zero] at he hfrac
  rw [f64bits_eq, he, hfrac, getLsbD_signedBits]
  rfl

/-- The value of a normal pattern: its significand `2^52 + f` at the exponent of its field. -/
theorem f64bits_normal (neg : Bool) {e f : Nat} (he : e < 2046) (hf : f < 2 ^ 52) :
    f64bits (signedBits neg (f + (e + 1) * 2 ^ 52)) = .fin neg ((2 ^ 52 + f) * 2 ^ e) := by
  rw [f64bits_eq, exponentField_signedBits neg (by omega) hf, fractionField_signedBits neg (by omega) hf, getLsbD_signedBits,
    if_neg (by omega), if_neg (by omega), Nat.add_sub_cancel]

/-- The value of the pattern of an infinity. -/
theorem f64bits_bits_inf (neg : Bool) : f64bits (F64.inf neg).bits = .inf neg := by
  cases neg <;> decide

/-- A representable value is 0, subnormal, or has a significand of exactly 53 bits at an exponent of the format. -/
theorem representable_cases {m : Nat} (h : Representable m) :
    m < 2 ^ 52 ∨ ∃ f k, f < 2 ^ 52 ∧ k ≤ 2045 ∧ m = (2 ^ 52 + f) * 2 ^ k := by
  obtain ⟨c, k, hc, hk, rfl⟩ := h
  induction k generalizing c with
  | zero =>
    rcases Nat.lt_or_ge c (2 ^ 52) with hlow | hhigh
    · exact .inl (by omega)
    · exact .inr ⟨c - 2 ^ 52, 0, by omega, by omega, by omega⟩
  | succ k ih =>
    rcases Nat.lt_or_ge c (2 ^ 52) with hlow | hhigh
    · have hshift : c * 2 ^ (k + 1) = 2 * c * 2 ^ k := by ring
      rw [hshift]
      exact ih (2 * c) (by omega) (by omega)
    · exact .inr ⟨c - 2 ^ 52, k + 1, by omega, hk, by rw [Nat.add_sub_cancel' hhigh]⟩

/-- A representable value is read back from its pattern. -/
theorem f64bits_bits_of_representable (neg : Bool) {m : Nat} (h : Representable m) : f64bits (F64.fin neg m).bits = .fin neg m := by
  obtain hsub | ⟨f, k, hf, hk, rfl⟩ := representable_cases h
  · rw [F64.bits_subnormal _ (by omega), f64bits_subnormal _ hsub]
  · rw [F64.bits_normal _ (by omega) (by omega), show 2 ^ 52 + f + k * 2 ^ 52 = f + (k + 1) * 2 ^ 52 by ring,
      f64bits_normal _ (by omega) hf]

/-- Every result of rounding is read back from its pattern. -/
theorem f64bits_bits_round (neg : Bool) {num den : Nat} (hden : 0 < den) :
    f64bits (F64.round neg num den).bits = F64.round neg num den := by
  rcases F64.round_fin_or_inf (num := num) hden neg with ⟨-, hunits, hround⟩ | ⟨-, hround⟩
  · rw [hround, f64bits_bits_of_representable neg (roundUnits_representable hden hunits)]
  · rw [hround, f64bits_bits_inf]

end Sys2Proof.Machine
end

section
/-!
PROOFS. Binary64 arithmetic read as arithmetic of rationals: what one rounding can do to a value of at most 65536 in absolute value, and
the operations by an integer constant that the formulas of `41_color.md` are made of.
-/

namespace Sys2Proof.Machine

open Sys2Proof.Claims

/-! ### The rounded units against the exact quotient -/

section
variable {num den k : Nat}

/-- Rounding does not pass a representable value that lies above the exact one. -/
theorem roundUnits_le (hden : 0 < den) (hk : Representable k) (h : num ≤ k * den) : roundUnits num den ≤ k := by
  by_contra hlt
  have hnear := (roundUnits_nearest (num := num) hden hk).1
  have hmul : k * den < roundUnits num den * den := Nat.mul_lt_mul_of_pos_right (not_le.1 hlt) hden
  rw [error_eq, error_eq] at hnear
  omega

/-- Rounding does not pass a representable value that lies below the exact one. -/
theorem le_roundUnits (hden : 0 < den) (hk : Representable k) (h : k * den ≤ num) : k ≤ roundUnits num den := by
  by_contra hlt
  have hnear := (roundUnits_nearest (num := num) hden hk).1
  have hmul : roundUnits num den * den < k * den := Nat.mul_lt_mul_of_pos_right (not_le.1 hlt) hden
  rw [error_eq, error_eq] at hnear
  omega

/-- The numbers of units up to 65536 have at most 1091 bits. -/
theorem lt_two_pow_of_le_limit {m : Nat} (h : m ≤ 2 ^ 16 * unitsPerOne) (hk : 1091 ≤ k) : m < 2 ^ k := by
  refine h.trans_lt ?_
  rw [unitsPerOne_eq, ← pow_add, Nat.pow_lt_pow_iff_right (by decide)]
  omega

theorem log2_lt_of_le_limit {m : Nat} (h : m ≤ 2 ^ 16 * unitsPerOne) (hk : 1091 ≤ k) : Nat.log2 m < k := by
  rcases Nat.eq_zero_or_pos m with rfl | hpos
  · rw [Nat.log2_zero]
    omega
  · exact (Nat.log2_lt hpos.ne').2 (lt_two_pow_of_le_limit h hk)

/-- Up to 65536 the last place is at most `2^-36`. -/
theorem two_pow_roundPlace_le_of_le (h : num ≤ 2 ^ 16 * unitsPerOne * den) : 2 ^ 36 * 2 ^ roundPlace num den ≤ unitsPerOne := by
  have hquot : num / den ≤ 2 ^ 16 * unitsPerOne := Nat.div_le_of_le_mul (by rwa [mul_comm])
  have hlog := log2_lt_of_le_limit hquot (k := 1091) le_rfl
  rw [unitsPerOne_eq, ← pow_add, Nat.pow_le_pow_iff_right (by decide)]
  unfold roundPlace lastPlace
  omega

/-- Up to 65536 the rounded value is within half such a last place, `2^-37`, of the exact one. -/
theorem error_roundUnits_le (hden : 0 < den) (h : num ≤ 2 ^ 16 * unitsPerOne * den) :
    2 ^ 37 * error num den (roundUnits num den) ≤ unitsPerOne * den := by
  have hhalf : 2 * error num den (roundUnits num den) ≤ den * 2 ^ roundPlace num den := by
    obtain ⟨hdown, hup, -⟩ := divNearestEven_spec num (den * 2 ^ roundPlace num den) (Nat.mul_pos hden (Nat.two_pow_pos _))
    rw [roundUnits, error_mul_ulp, error_eq, roundSignificand]
    omega
  calc 2 ^ 37 * error num den (roundUnits num den) = 2 ^ 36 * (2 * error num den (roundUnits num den)) := by ring
    _ ≤ 2 ^ 36 * (den * 2 ^ roundPlace num den) := Nat.mul_le_mul_left _ hhalf
    _ = 2 ^ 36 * 2 ^ roundPlace num den * den := by ring
    _ ≤ unitsPerOne * den := Nat.mul_le_mul_right _ (two_pow_roundPlace_le_of_le h)

end

/-! ### Values as rationals -/

/-- The rational a finite value stands for. -/
def F64.value : F64 → ℚ
  | .fin s m => (signedUnits s m : ℚ) / unitsPerOne
  | .inf _ | .nan => 0

theorem unitsPerOne_pos : 0 < unitsPerOne := pow2_pos 1074

theorem unitsPerOne_cast_pos : (0 : ℚ) < unitsPerOne := Nat.cast_pos.2 unitsPerOne_pos

theorem F64.value_fin (s : Bool) (m : Nat) : (F64.fin s m).value = (signedUnits s m : ℚ) / unitsPerOne := rfl

theorem signedUnits_false (m : Nat) : signedUnits false m = m := rfl
theorem signedUnits_true (m : Nat) : signedUnits true m = -m := rfl

theorem signedUnits_mul (s : Bool) (m c : Nat) : signedUnits s (m * c) = signedUnits s m * c := by
  cases s
  · simp [signedUnits_false]
  · simp [signedUnits_true]

theorem signedUnits_sub (s : Bool) (m n : Nat) :
    |(signedUnits s m : ℚ) - signedUnits s n| = |(m : ℚ) - n| := by
  cases s
  · simp [signedUnits_false]
  · rw [signedUnits_true, signedUnits_true, abs_sub_comm]
    push_cast
    ring_nf

theorem abs_signedUnits (s : Bool) (m : Nat) : |(signedUnits s m : ℚ)| = m := by
  cases s
  · simp [signedUnits_false]
  · simp [signedUnits_true]

theorem signedUnits_natAbs (z : Int) : signedUnits (decide (z < 0)) z.natAbs = z := by
  by_cases h : z < 0
  · rw [decide_eq_true h, signedUnits_true]
    omega
  · rw [decide_eq_false h, signedUnits_false]
    omega

@[simp] theorem F64.value_ofNat (k : Nat) : (F64.ofNat k).value = k := by
  rw [F64.ofNat, F64.value_fin, signedUnits_false, Int.cast_natCast, Nat.cast_mul, mul_div_cancel_right₀ _ unitsPerOne_cast_pos.ne']

@[simp] theorem F64.value_neg_ofNat (k : Nat) : (F64.ofNat k).neg.value = -k := by
  have h := F64.value_ofNat k
  rw [F64.ofNat, F64.value_fin, signedUnits_false, Int.cast_natCast] at h
  rw [F64.ofNat, F64.neg, F64.value_fin, Bool.not_false, signedUnits_true, Int.cast_neg, Int.cast_natCast, neg_div, h]

theorem F64.abs_value_fin (s : Bool) (m : Nat) : |(F64.fin s m).value| = m / unitsPerOne := by
  rw [F64.value_fin, abs_div, abs_signedUnits, abs_of_pos unitsPerOne_cast_pos]

theorem F64.value_fin_false (m : Nat) : (F64.fin false m).value = m / unitsPerOne := by
  rw [F64.value_fin, signedUnits_false, Int.cast_natCast]

theorem F64.value_fin_false_nonneg (m : Nat) : 0 ≤ (F64.fin false m).value := by
  rw [F64.value_fin_false]
  positivity

/-- A bound on the value of a finite value is a bound on its units. -/
theorem F64.abs_value_fin_le_iff (s : Bool) (m n : Nat) : |(F64.fin s m).value| ≤ n ↔ m ≤ n * 2 ^ 1074 := by
  rw [F64.abs_value_fin, div_le_iff₀ unitsPerOne_cast_pos, ← unitsPerOne_eq]
  exact_mod_cast Iff.rfl

/-- Finite values compare as their rationals. -/
theorem F64.le_fin_iff (s t : Bool) (m n : Nat) : F64.le (.fin s m) (.fin t n) = true ↔ (F64.fin s m).value ≤ (F64.fin t n).value := by
  rw [F64.value_fin, F64.value_fin, div_le_div_iff_of_pos_right unitsPerOne_cast_pos, Int.cast_le]
  simp [F64.le, F64.key]

/-! ### One rounding -/

/-- The value `v`, of sign `s`, comes from the exact `x` by one rounding: it is within `2^-37` of it, no integer lies between the two,
and it is read back from its pattern. (For an exact value of at most 65536, `roundsTo_round`.) -/
structure RoundsTo (s : Bool) (v : F64) (x : ℚ) : Prop where
  finite : ∃ m, v = .fin s m
  near : |v.value - x| ≤ 1 / 2 ^ 37
  abs_le : ∀ n : Nat, n ≤ 65536 → |x| ≤ n → |v.value| ≤ n
  le_abs : ∀ n : Nat, n ≤ 65536 → n ≤ |x| → n ≤ |v.value|
  pattern : f64bits v.bits = v

/-- A natural number of the format's precision is representable. -/
theorem representable_ofNat {n : Nat} (h : n < 2 ^ 53) : Representable (n * unitsPerOne) :=
  ⟨n, 1074, h, by decide, by rw [unitsPerOne_eq]⟩

/-- Rounding an exact value of at most 65536. -/
theorem roundsTo_round (s : Bool) {num den : Nat} (hden : 0 < den) {x : ℚ}
    (hx : x = (signedUnits s num : ℚ) / (den * unitsPerOne)) (hlim : |x| ≤ 65536) : RoundsTo s (F64.round s num den) x := by
  have hU := unitsPerOne_cast_pos
  have hd : (0 : ℚ) < den := Nat.cast_pos.2 hden
  have habs : |x| = num / (den * unitsPerOne) := by
    rw [hx, abs_div, abs_signedUnits, abs_of_pos (mul_pos hd hU)]
  have habs_le : ∀ n : Nat, |x| ≤ n ↔ num ≤ n * unitsPerOne * den := by
    intro n
    rw [habs, div_le_iff₀ (mul_pos hd hU), mul_assoc, mul_comm unitsPerOne]
    exact_mod_cast Iff.rfl
  have hle_abs : ∀ n : Nat, n ≤ |x| ↔ n * unitsPerOne * den ≤ num := by
    intro n
    rw [habs, le_div_iff₀ (mul_pos hd hU), mul_assoc, mul_comm unitsPerOne]
    exact_mod_cast Iff.rfl
  have hnum : num ≤ 2 ^ 16 * unitsPerOne * den := (habs_le (2 ^ 16)).1 (by exact_mod_cast hlim)
  have hround : F64.round s num den = .fin s (roundUnits num den) := by
    have hunits : roundUnits num den ≤ 2 ^ 16 * unitsPerOne := roundUnits_le hden (representable_ofNat (by decide)) hnum
    rw [F64.round_eq, if_pos (lt_two_pow_of_le_limit hunits (by decide))]
  refine ⟨⟨_, hround⟩, ?_, fun n hn h => ?_, fun n hn h => ?_, f64bits_bits_round s hden⟩
  · have herror := error_roundUnits_le hden hnum
    rw [error] at herror
    have hcast : (2 : ℚ) ^ 37 * |(num : ℚ) - roundUnits num den * den| ≤ unitsPerOne * den := by
      have := (Nat.cast_le (α := ℚ)).2 herror
      push_cast [Nat.cast_natAbs] at this
      exact this
    have hdiff : (F64.fin s (roundUnits num den)).value - x =
        ((signedUnits s (roundUnits num den * den) : ℚ) - signedUnits s num) / (den * unitsPerOne) := by
      rw [F64.value_fin, hx, signedUnits_mul]
      push_cast
      field_simp
    rw [hround, hdiff, abs_div, signedUnits_sub, abs_of_pos (mul_pos hd hU), div_le_div_iff₀ (mul_pos hd hU) (by positivity),
      abs_sub_comm, one_mul]
    push_cast
    linarith
  · rw [hround, F64.abs_value_fin_le_iff, ← unitsPerOne_eq]
    exact roundUnits_le hden (representable_ofNat (by omega)) ((habs_le n).1 h)
  · rw [hround, F64.abs_value_fin, le_div_iff₀ hU]
    exact_mod_cast le_roundUnits hden (representable_ofNat (by omega)) ((hle_abs n).1 h)

/-! ### The operations -/

section
variable {v : F64} {s : Bool} (hv : ∃ m, v = .fin s m) (c : Nat)
include hv

/-- `f_mul` by an integer constant is the product, rounded once. -/
theorem roundsTo_fMul (h : |v.value * c| ≤ 65536) : RoundsTo s (fMul v (F64.ofNat c)) (v.value * c) := by
  obtain ⟨m, rfl⟩ := hv
  rw [F64.ofNat, fMul_fin, Bool.xor_false]
  refine roundsTo_round s unitsPerOne_pos ?_ h
  have hU := unitsPerOne_cast_pos
  rw [F64.value_fin, signedUnits_mul]
  push_cast
  field_simp

/-- `f_div` by a positive integer constant is the quotient, rounded once. -/
theorem roundsTo_fDiv (hc : 0 < c) (h : |v.value / c| ≤ 65536) : RoundsTo s (fDiv v (F64.ofNat c)) (v.value / c) := by
  obtain ⟨m, rfl⟩ := hv
  have hpos : 0 < c * unitsPerOne := Nat.mul_pos hc unitsPerOne_pos
  rw [F64.ofNat, fDiv_fin _ _ _ _ hpos.ne', Bool.xor_false]
  refine roundsTo_round s hpos ?_ h
  have hU := unitsPerOne_cast_pos
  have hc' : (0 : ℚ) < c := Nat.cast_pos.2 hc
  rw [F64.value_fin, signedUnits_mul]
  push_cast
  field_simp

end

/-- `f_add` is the sum, rounded once. -/
theorem roundsTo_fAdd {a b : F64} {s t : Bool} (ha : ∃ m, a = .fin s m) (hb : ∃ n, b = .fin t n)
    (h : |a.value + b.value| ≤ 65536) : ∃ r, RoundsTo r (fAdd a b) (a.value + b.value) := by
  obtain ⟨m, rfl⟩ := ha
  obtain ⟨n, rfl⟩ := hb
  have hsum : (F64.fin s m).value + (F64.fin t n).value = ((signedUnits s m + signedUnits t n : Int) : ℚ) / ((1 : Nat) * unitsPerOne) := by
    rw [F64.value_fin, F64.value_fin]
    push_cast
    ring
  by_cases hzero : signedUnits s m + signedUnits t n = 0
  · refine ⟨s && t, ?_⟩
    rw [show fAdd (.fin s m) (.fin t n) = F64.round (s && t) 0 1 by simp [fAdd, hzero]]
    refine roundsTo_round _ one_pos ?_ h
    rw [hsum, hzero]
    cases s && t <;> rfl
  · refine ⟨decide (signedUnits s m + signedUnits t n < 0), ?_⟩
    rw [fAdd_fin _ _ _ _ hzero]
    refine roundsTo_round _ one_pos ?_ h
    rw [hsum, signedUnits_natAbs]

/-- Adding or subtracting an integer constant. -/
theorem roundsTo_fAdd_ofNat {v : F64} {s : Bool} (hv : ∃ m, v = .fin s m) (c : Nat) (h : |v.value + c| ≤ 65536) :
    ∃ r, RoundsTo r (fAdd v (F64.ofNat c)) (v.value + c) := by
  rw [← F64.value_ofNat c] at h ⊢
  exact roundsTo_fAdd hv ⟨_, rfl⟩ h

theorem roundsTo_fSub_ofNat {v : F64} {s : Bool} (hv : ∃ m, v = .fin s m) (c : Nat) (h : |v.value - c| ≤ 65536) :
    ∃ r, RoundsTo r (fSub v (F64.ofNat c)) (v.value - c) := by
  rw [sub_eq_add_neg, ← F64.value_neg_ofNat c] at h ⊢
  exact roundsTo_fAdd hv ⟨_, rfl⟩ h

end Sys2Proof.Machine
end

section
/-!
PROOFS. The quantizers of `41_color.md` (R84 to R88, R92, R99): the order of the values, `clamp1`, the byte of a value, and how a
float-to-byte command ends (O19 to O24, O28).
-/

namespace Sys2Proof.Machine

open Sys2Proof.Claims

/-! ### The order of the values -/

theorem F64.lt_false_of_le {a b : F64} (h : F64.le a b = true) : F64.lt b a = false := by
  obtain ⟨x, y, hx, hy, hle⟩ := (F64.le_iff a b).1 h
  simp [F64.lt, hx, hy, hle]

theorem F64.le_trans {a b c : F64} (hab : F64.le a b = true) (hbc : F64.le b c = true) : F64.le a c = true := by
  obtain ⟨x, y, hx, hy, hxy⟩ := (F64.le_iff a b).1 hab
  obtain ⟨y', z, hy', hz, hyz⟩ := (F64.le_iff b c).1 hbc
  obtain rfl : y = y' := Option.some.inj (hy.symm.trans hy')
  exact (F64.le_iff a c).2 ⟨x, z, hx, hz, hxy.trans hyz⟩

theorem F64.le_of_lt {a b : F64} (h : F64.lt a b = true) : F64.le a b = true := by
  obtain ⟨x, y, hx, hy, hlt⟩ := (F64.lt_iff a b).1 h
  exact (F64.le_iff a b).2 ⟨x, y, hx, hy, hlt.le⟩

/-- Two values of which neither is below the other have one place in the order. -/
theorem F64.key_eq_of_le {a b : F64} (hle : F64.le a b = true) (hlt : F64.lt a b = false) : a.key = b.key := by
  obtain ⟨x, y, hx, hy, hxy⟩ := (F64.le_iff a b).1 hle
  simp only [F64.lt, hx, hy, decide_eq_false_iff_not] at hlt
  rw [hx, hy, le_antisymm hxy (not_lt.1 hlt)]

/-- The place of a finite value other than a zero is its own. -/
theorem F64.eq_fin_of_key_eq {v : F64} {s : Bool} {m : Nat} (hm : 0 < m) (hlim : m < unitsLimit) (h : v.key = (F64.fin s m).key) :
    v = .fin s m := by
  cases v with
  | nan => simp [F64.key] at h
  | inf t => cases s <;> cases t <;> simp [F64.key, signedUnits] at h <;> omega
  | fin t n => cases s <;> cases t <;> simp [F64.key, signedUnits] at h ⊢ <;> omega

/-! ### `clamp1` -/

/-- The patterns of `0.0`, `1.0` and `-1.0`. -/
theorem f64bits_zero : f64bits 0 = F64.ofNat 0 := by decide
theorem f64bits_one : f64bits 0x3FF0000000000000#64 = F64.ofNat 1 := by decide
theorem f64bits_neg_one : f64bits 0xBFF0000000000000#64 = (F64.ofNat 1).neg := by decide

theorem not_one_le_neg_one : F64.le (F64.ofNat 1) (F64.ofNat 1).neg = false := by decide

/-- No value lies at or above `1.0` and at or below `-1.0`. -/
theorem absurd_of_one_le {v : F64} (hlo : F64.le (F64.ofNat 1) v = true) (hhi : F64.le v (F64.ofNat 1).neg = true) : False := by
  have h := F64.le_trans hlo hhi
  rw [not_one_le_neg_one] at h
  cases h

/-- From `-1.0` down `clamp1` gives `-1.0`. -/
theorem clamp1_of_le {v : F64} (h : F64.le v (F64.ofNat 1).neg = true) : clamp1 v = (F64.ofNat 1).neg := by
  rcases clamp1_cases v with ⟨-, hclamp⟩ | ⟨-, hgt, -⟩ | ⟨hlt, -, hclamp⟩
  · exact hclamp
  · exact (absurd_of_one_le (F64.le_of_lt hgt) h).elim
  · rw [hclamp]
    exact F64.eq_fin_of_key_eq (by decide) (by decide) (F64.key_eq_of_le h hlt)

/-- From `1.0` up `clamp1` gives `1.0`. -/
theorem clamp1_of_ge {v : F64} (h : F64.le (F64.ofNat 1) v = true) : clamp1 v = F64.ofNat 1 := by
  rcases clamp1_cases v with ⟨hlt, -⟩ | ⟨-, -, hclamp⟩ | ⟨-, hgt, hclamp⟩
  · exact (absurd_of_one_le h (F64.le_of_lt hlt)).elim
  · exact hclamp
  · rw [hclamp]
    exact F64.eq_fin_of_key_eq (by decide) (by decide) (F64.key_eq_of_le h hgt).symm

/-- `clamp1` keeps a finite value of at most `1.0` in absolute value. -/
theorem clamp1_of_abs_le {v : F64} {s : Bool} (hv : ∃ m, v = .fin s m) (h : |v.value| ≤ 1) : clamp1 v = v := by
  obtain ⟨m, rfl⟩ := hv
  obtain ⟨hlo, hhi⟩ := abs_le.1 h
  have hone := F64.value_ofNat 1
  have hneg := F64.value_neg_ofNat 1
  rw [Nat.cast_one] at hone hneg
  have hbelow : F64.le (F64.ofNat 1).neg (.fin s m) = true := (F64.le_fin_iff _ _ _ _).2 (hneg.trans_le hlo)
  have habove : F64.le (.fin s m) (F64.ofNat 1) = true := (F64.le_fin_iff _ _ _ _).2 (hhi.trans_eq hone.symm)
  rw [clamp1, F64.lt_false_of_le hbelow, F64.lt_false_of_le habove]
  rfl

/-- Settles O19. -/
theorem clampToUnitInterval : Obligations.ClampToUnitInterval := by
  unfold Obligations.ClampToUnitInterval
  intro v
  rw [f64bits_one, f64bits_neg_one]
  refine ⟨fun h => clamp1_of_le (F64.le_of_lt h), fun h => clamp1_of_ge (F64.le_of_lt h), fun hlo hhi => ?_⟩
  rw [clamp1, hlo, hhi]
  rfl

/-! ### When a result is a NaN -/

theorem F64.isNaN_round (neg : Bool) (num den : Nat) : (F64.round neg num den).isNaN = false := by
  rcases F64.round_cases neg num den with ⟨m, h, -⟩ | h <;> rw [h] <;> rfl

/-- Dividing by a positive integer makes no NaN. -/
theorem isNaN_fDiv_ofNat (v : F64) {c : Nat} (hc : 0 < c) : (fDiv v (F64.ofNat c)).isNaN = v.isNaN := by
  cases v with
  | nan => rfl
  | inf s => rfl
  | fin s m =>
    rw [F64.ofNat, fDiv_fin _ _ _ _ (Nat.mul_pos hc unitsPerOne_pos).ne', F64.isNaN_round]
    rfl

/-- Multiplying by an integer makes a NaN only of an infinity by 0 (R92). -/
theorem isNaN_fMul_ofNat_iff (v : F64) (c : Nat) :
    (fMul v (F64.ofNat c)).isNaN = true ↔ v.isNaN = true ∨ (∃ s, v = .inf s) ∧ c = 0 := by
  cases v with
  | nan => simp [fMul]
  | inf s =>
    have hU : unitsPerOne ≠ 0 := unitsPerOne_pos.ne'
    by_cases hc : c = 0
    · simp [F64.ofNat, fMul, hc]
    · simp [F64.ofNat, fMul, hc, hU]
  | fin s m => simp [F64.ofNat, fMul_fin, F64.isNaN_round]

theorem isNaN_fMul_ofNat (v : F64) {c : Nat} (hc : 0 < c) : (fMul v (F64.ofNat c)).isNaN = v.isNaN := by
  rw [Bool.eq_iff_iff, isNaN_fMul_ofNat_iff]
  simp [hc.ne']

/-- Adding an integer makes no NaN. -/
theorem isNaN_fAdd_ofNat (v : F64) (c : Nat) : (fAdd v (F64.ofNat c)).isNaN = v.isNaN := by
  cases v with
  | nan => rfl
  | inf s => rfl
  | fin s m =>
    by_cases hzero : signedUnits s m + signedUnits false (c * unitsPerOne) = 0
    · simp [F64.ofNat, fAdd, hzero]
    · rw [F64.ofNat, fAdd_fin _ _ _ _ hzero, F64.isNaN_round]
      rfl

/-- A value with a place in the order is no NaN. -/
theorem isNaN_of_key_eq_some {v : F64} {x : Int} (h : v.key = some x) : v.isNaN = false := by
  cases v with
  | nan => cases h
  | inf s => rfl
  | fin s m => rfl

theorem isNaN_of_lt {a b : F64} (h : F64.lt a b = true) : a.isNaN = false ∧ b.isNaN = false := by
  obtain ⟨x, y, hx, hy, -⟩ := (F64.lt_iff a b).1 h
  exact ⟨isNaN_of_key_eq_some hx, isNaN_of_key_eq_some hy⟩

theorem isNaN_clamp1 (v : F64) : (clamp1 v).isNaN = v.isNaN := by
  rcases clamp1_cases v with ⟨hlt, hclamp⟩ | ⟨-, hgt, hclamp⟩ | ⟨-, -, hclamp⟩
  · rw [hclamp, (isNaN_of_lt hlt).1, (isNaN_of_lt hlt).2]
  · rw [hclamp, (isNaN_of_lt hgt).1, (isNaN_of_lt hgt).2]
  · rw [hclamp]

theorem isNaN_quantizeAxis (v : F64) : (quantizeAxis v).isNaN = v.isNaN := by
  rw [quantizeAxis, isNaN_fMul_ofNat _ (by decide), isNaN_fDiv_ofNat _ (by decide), isNaN_fAdd_ofNat, isNaN_clamp1]

/-! ### The byte of a value -/

/-- A value between 0 and 255 is finite and positive. -/
theorem eq_fin_of_between {t : F64} (hpos : F64.lt (F64.ofNat 0) t = true) (hlt : F64.lt t (F64.ofNat 255) = true) :
    ∃ m, t = .fin false m ∧ m < 255 * unitsPerOne := by
  have hbig : 255 * unitsPerOne < unitsLimit := by decide
  obtain ⟨x, y, hx, hy, hxy⟩ := (F64.lt_iff _ _).1 hpos
  obtain ⟨y', z, hy', hz, hyz⟩ := (F64.lt_iff _ _).1 hlt
  obtain rfl : y = y' := Option.some.inj (hy.symm.trans hy')
  obtain rfl : 0 = x := by simpa [F64.ofNat, F64.key, signedUnits] using hx
  obtain rfl : (255 * unitsPerOne : Nat) = z := Option.some.inj hz
  rcases t with _ | (_ | _) | ⟨_ | _, m⟩
  case nan => cases hy
  all_goals obtain rfl := Option.some.inj hy
  case inf.false => rw [signedUnits_false] at hyz; omega
  case inf.true => rw [signedUnits_true] at hxy; omega
  case fin.false => exact ⟨m, rfl, by rw [signedUnits_false] at hyz; omega⟩
  case fin.true => rw [signedUnits_true] at hxy; omega

/-- R11: `round_near` and `trunc` give the bytes the statements ask for. -/
theorem roundNear_nearestByte {m : Nat} (h : m < 255 * unitsPerOne) : NearestByte (.fin false m) (roundNear (.fin false m)) := by
  have hpos : 0 < 2 * unitsPerOne := Nat.mul_pos two_pos unitsPerOne_pos
  have hbyte : (2 * m + unitsPerOne) / (2 * unitsPerOne) < 256 := (Nat.div_lt_iff_lt_mul hpos).2 (by omega)
  have hlo := Nat.div_mul_le_self (2 * m + unitsPerOne) (2 * unitsPerOne)
  have hhi := Nat.lt_mul_of_div_lt (Nat.lt_succ_self ((2 * m + unitsPerOne) / (2 * unitsPerOne))) hpos
  refine ⟨m, rfl, ?_⟩
  rw [roundNear, BitVec.toNat_ofNat, Nat.mod_eq_of_lt hbyte, ← unitsPerOne_eq]
  generalize (2 * m + unitsPerOne) / (2 * unitsPerOne) = q at hlo hhi ⊢
  exact ⟨by linarith, by linarith⟩

theorem trunc_floorByte {m : Nat} (h : m < 255 * unitsPerOne) : FloorByte (.fin false m) (trunc (.fin false m)) := by
  have hbyte : m / unitsPerOne < 256 := (Nat.div_lt_iff_lt_mul unitsPerOne_pos).2 (by omega)
  refine ⟨m, rfl, ?_⟩
  rw [trunc, BitVec.toNat_ofNat, Nat.mod_eq_of_lt hbyte, ← unitsPerOne_eq]
  exact ⟨Nat.div_mul_le_self _ _, Nat.lt_mul_of_div_lt (Nat.lt_succ_self _) unitsPerOne_pos⟩

/-- R84: the byte of a value that is no NaN. -/
theorem qbyteStep_byteOf {t : F64} (ht : t.isNaN = false) (mode : Config.RoundMode) :
    ∃ b, ByteOf mode t b ∧ qbyteStep t mode = (b, false) := by
  rcases qbyteStep_cases t mode with ⟨hnan, -⟩ | ⟨-, hhigh, hq⟩ | ⟨-, hhigh, hlow, hq⟩ | ⟨-, hhigh, hlow, hq⟩
  · rw [ht] at hnan
    cases hnan
  · refine ⟨255, ⟨fun _ => rfl, fun hlow => ?_, fun _ hlt => ?_⟩, hq⟩
    · have h := F64.le_trans hhigh hlow
      exact absurd h (by decide)
    · rw [F64.lt_false_of_le hhigh] at hlt
      cases hlt
  · refine ⟨0, ⟨fun h => ?_, fun _ => rfl, fun hpos _ => ?_⟩, hq⟩
    · rw [hhigh] at h
      cases h
    · rw [F64.lt_false_of_le hlow] at hpos
      cases hpos
  · refine ⟨_, ⟨fun h => ?_, fun h => ?_, fun hpos hlt => ?_⟩, hq⟩
    · rw [hhigh] at h
      cases h
    · rw [hlow] at h
      cases h
    · obtain ⟨m, rfl, hm⟩ := eq_fin_of_between hpos hlt
      cases mode with
      | nearest => exact roundNear_nearestByte hm
      | truncate => exact trunc_floorByte hm

/-! ### How a float-to-byte command ends -/

theorem finishByte_byte (b : Byte) (s : State) :
    finishByte (b, false) s = .next (withRegs s { s.regs with qbyte := b, errLast := 0 }) :=
  (finishByte_next_iff _ _ _).2 (by rw [Bool.or_false]; rfl)

theorem finishByte_nan (s : State) :
    finishByte (0, true) s = .next (withRegs s { s.regs with qbyte := 0, nan := true, errLast := 0 }) :=
  (finishByte_next_iff _ _ _).2 (by rw [Bool.or_true]; rfl)

theorem finishByte_of_isNaN {t : F64} (ht : t.isNaN = true) (mode : Config.RoundMode) (s : State) :
    finishByte (qbyteStep t mode) s = .next (withRegs s { s.regs with qbyte := 0, nan := true, errLast := 0 }) := by
  have hq : qbyteStep t mode = (0, true) := if_pos ht
  rw [hq, finishByte_nan]

theorem finishByte_of_not_isNaN {t : F64} (ht : t.isNaN = false) (mode : Config.RoundMode) (s : State) :
    ∃ b, ByteOf mode t b ∧ finishByte (qbyteStep t mode) s = .next (withRegs s { s.regs with qbyte := b, errLast := 0 }) := by
  obtain ⟨b, hb, hq⟩ := qbyteStep_byteOf ht mode
  exact ⟨b, hb, by rw [hq, finishByte_byte]⟩

/-! ### The quantizers -/

/-- R83, R84: a command that makes the byte of a formula `t` of `F`, where `t` makes no NaN of its own. -/
theorem quantizes_of_formula {i : Instr} {t : F64 → F64} (hnan : ∀ v, (t v).isNaN = v.isNaN)
    (hi : ∀ s, exec i s = finishByte (qbyteStep (t (f64bits s.regs.f)) .nearest) s) :
    (∀ s : State, (f64bits s.regs.f).isNaN = true →
      exec i s = .next (withRegs s { s.regs with qbyte := 0, nan := true, errLast := 0 })) ∧
    (∀ s : State, (f64bits s.regs.f).isNaN = false →
      ∃ b, ByteOf .nearest (t (f64bits s.regs.f)) b ∧ exec i s = .next (withRegs s { s.regs with qbyte := b, errLast := 0 })) := by
  refine ⟨fun s h => ?_, fun s h => ?_⟩
  · rw [hi, finishByte_of_isNaN ((hnan _).trans h)]
  · rw [hi]
    exact finishByte_of_not_isNaN ((hnan _).trans h) .nearest s

/-- The formula of `QH` (R85) makes no NaN of its own. -/
theorem isNaN_quantizeHue (v : F64) : (fMul (fDiv v (F64.ofNat 360)) (F64.ofNat 255)).isNaN = v.isNaN := by
  rw [isNaN_fMul_ofNat _ (by decide), isNaN_fDiv_ofNat _ (by decide)]

/-- Settles O20. -/
theorem qhQuantizesHue : Obligations.QhQuantizesHue :=
  ⟨by decide, quantizes_of_formula isNaN_quantizeHue fun _ => rfl⟩

/-- Settles O21. -/
theorem qcQuantizesChroma : Obligations.QcQuantizesChroma :=
  ⟨by decide, quantizes_of_formula isNaN_quantizeAxis fun _ => rfl⟩

/-- Settles O22. -/
theorem qlQuantizesLightness : Obligations.QlQuantizesLightness :=
  ⟨by decide, quantizes_of_formula isNaN_quantizeAxis fun _ => rfl⟩

/-- Settles O23. -/
theorem qaQuantizesAlpha : Obligations.QaQuantizesAlpha :=
  ⟨by decide, quantizes_of_formula (fun v => isNaN_fMul_ofNat v (by decide)) fun _ => rfl⟩

/-- Settles O28: the product by `ABYTE` is a NaN exactly in the cases of R92. -/
theorem premulMultipliesAndRounds : Obligations.PremulMultipliesAndRounds := by
  unfold Obligations.PremulMultipliesAndRounds
  have hnan : ∀ s : State, (fMul (f64bits s.regs.f) (F64.ofNat s.regs.abyte.toNat)).isNaN = true ↔
      (f64bits s.regs.f).isNaN = true ∨ ((∃ n, f64bits s.regs.f = .inf n) ∧ s.regs.abyte = 0) := fun s => by
    rw [isNaN_fMul_ofNat_iff, ← BitVec.toNat_inj]
    rfl
  refine ⟨by decide, fun s h => finishByte_of_isNaN ((hnan s).2 h) _ s, fun s h => ?_⟩
  exact finishByte_of_not_isNaN (Bool.eq_false_iff.2 (mt (hnan s).1 h)) _ s

end Sys2Proof.Machine
end

section
/-!
PROOFS. The byte of a value that is known up to the errors of its roundings, and with it the saturation of `QC` and `QL` (O24), the
dequantizers (R89 to R91, O25 to O27), the alpha commands (R93, R94, O29, O30), and the round trips (R95 to R97, R100, O31 to O34).
-/

namespace Sys2Proof.Machine

open Sys2Proof.Claims

/-! ### The nearest byte, from bounds on the value -/

theorem F64.value_fin_true_nonpos (m : Nat) : (F64.fin true m).value ≤ 0 := by
  rw [F64.value_fin, signedUnits_true, Int.cast_neg, Int.cast_natCast]
  exact div_nonpos_of_nonpos_of_nonneg (neg_nonpos.2 (Nat.cast_nonneg m)) unitsPerOne_cast_pos.le

/-- R11 in rationals: `round_near` of a value from `b - 1/2` up to below `b + 1/2`. -/
theorem roundNear_of_value {m b : Nat} (hlo : (b : ℚ) - 1 / 2 ≤ (F64.fin false m).value)
    (hhi : (F64.fin false m).value < b + 1 / 2) : roundNear (.fin false m) = BitVec.ofNat 8 b := by
  have hU := unitsPerOne_cast_pos
  rw [F64.value_fin_false, le_div_iff₀ hU] at hlo
  rw [F64.value_fin_false, div_lt_iff₀ hU] at hhi
  refine congrArg (BitVec.ofNat 8) (Nat.div_eq_of_lt_le ?_ ?_)
  · exact_mod_cast (by linarith : (b : ℚ) * (2 * unitsPerOne) ≤ 2 * m + unitsPerOne)
  · exact_mod_cast (by linarith : (2 * m + unitsPerOne : ℚ) < (b + 1) * (2 * unitsPerOne))

/-- R84 in rationals: the byte nearest to a finite value; the clamps at 0 and 255 agree with it. -/
theorem qbyteStep_of_value {v : F64} {s : Bool} (hv : ∃ m, v = .fin s m) {b : Nat} (hb : b ≤ 255)
    (hlo : (b : ℚ) - 1 / 2 ≤ v.value) (hhi : v.value < b + 1 / 2) : qbyteStep v .nearest = (BitVec.ofNat 8 b, false) := by
  obtain ⟨m, rfl⟩ := hv
  rcases qbyteStep_cases (.fin s m) .nearest with ⟨hnan, -⟩ | ⟨-, hhigh, hq⟩ | ⟨-, -, hlow, hq⟩ | ⟨-, -, hlow, hq⟩
  · cases hnan
  · have hvalue := (F64.le_fin_iff _ _ _ _).1 hhigh
    rw [← F64.ofNat, F64.value_ofNat] at hvalue
    have hceil : (255 : ℚ) < b + 1 := by
      push_cast at hvalue
      linarith
    obtain rfl : b = 255 := le_antisymm hb (Nat.lt_succ_iff.1 (by exact_mod_cast hceil))
    exact hq
  · have hvalue := (F64.le_fin_iff _ _ _ _).1 hlow
    rw [← F64.ofNat, F64.value_ofNat] at hvalue
    have hfloor : (b : ℚ) < 1 := by
      push_cast at hvalue
      linarith
    obtain rfl : b = 0 := Nat.lt_one_iff.1 (by exact_mod_cast hfloor)
    exact hq
  · cases s with
    | false => rw [hq, roundNear_of_value hlo hhi]
    | true =>
      have hzero : (F64.fin true m).value ≤ (F64.ofNat 0).value := by
        rw [F64.value_ofNat, Nat.cast_zero]
        exact F64.value_fin_true_nonpos m
      rw [F64.ofNat, ← F64.le_fin_iff, ← F64.ofNat, hlow] at hzero
      cases hzero

/-! ### `QC` and `QL` -/

/-- The byte of `((v + 1) / 2) * 255` for a clamped value within `2^-20` of the byte's own `2b/255 - 1`: the three roundings move the
result by far less than the half that is left. -/
theorem qbyteStep_quantizeAxis {v : F64} {s : Bool} (hv : ∃ m, clamp1 v = .fin s m) {b : Nat} (hb : b ≤ 255)
    (hnear : |(clamp1 v).value - (2 * (b / 255) - 1)| ≤ 1 / 2 ^ 20) :
    qbyteStep (quantizeAxis v) .nearest = (BitVec.ofNat 8 b, false) := by
  have hbyte : (b : ℚ) / 255 ≤ 1 := by
    rw [div_le_one (by norm_num)]
    exact_mod_cast hb
  have hpos : (0 : ℚ) ≤ b / 255 := by positivity
  have hb255 : (b : ℚ) = b / 255 * 255 := by ring
  rw [abs_le] at hnear
  obtain ⟨r, hsum⟩ := roundsTo_fAdd_ofNat hv 1 (by rw [abs_le]; constructor <;> push_cast <;> linarith)
  have hsum_near := abs_le.1 hsum.near
  push_cast at hsum_near
  have hhalf := roundsTo_fDiv hsum.finite 2 two_pos (by rw [abs_le]; constructor <;> push_cast <;> linarith)
  have hhalf_near := abs_le.1 hhalf.near
  push_cast at hhalf_near
  have hscaled := roundsTo_fMul hhalf.finite 255 (by rw [abs_le]; constructor <;> push_cast <;> linarith)
  have hscaled_near := abs_le.1 hscaled.near
  push_cast at hscaled_near
  exact qbyteStep_of_value hscaled.finite hb (by linarith) (by linarith)

/-- Settles O24: the clamped value is `-1.0` or `1.0`, that of the byte 0 or 255. -/
theorem axisQuantizersSaturate : Obligations.AxisQuantizersSaturate := by
  unfold Obligations.AxisQuantizersSaturate
  rw [f64bits_one, f64bits_neg_one]
  intro i s hi
  have hexec : exec i s = finishByte (qbyteStep (quantizeAxis (f64bits s.regs.f)) .nearest) s := by
    rcases hi with rfl | rfl <;> rfl
  rw [hexec]
  refine ⟨fun h => ?_, fun h => ?_⟩
  · have hq := qbyteStep_quantizeAxis (b := 0) ⟨_, clamp1_of_le h⟩ (by decide) (by
      rw [clamp1_of_le h, F64.value_neg_ofNat]; norm_num)
    rw [hq, finishByte_byte]
    rfl
  · have hq := qbyteStep_quantizeAxis (b := 255) ⟨_, clamp1_of_ge h⟩ (by decide) (by
      rw [clamp1_of_ge h, F64.value_ofNat]; norm_num)
    rw [hq, finishByte_byte]
    rfl

/-! ### Quotients, and the dequantizers -/

theorem finishFloat_eq (v : F64) (s : State) :
    finishFloat v s = .next (withRegs s { s.regs with f := v.bits, errLast := 0 }) := rfl

/-- A value of positive sign that comes from an exact value of at most `n` lies in [0, `n`]. -/
theorem RoundsTo.mem_Icc {v : F64} {x : ℚ} (h : RoundsTo false v x) {n : Nat} (hn : n ≤ 65536) (hx : |x| ≤ n) :
    0 ≤ v.value ∧ v.value ≤ n := by
  obtain ⟨m, rfl⟩ := h.finite
  exact ⟨F64.value_fin_false_nonneg m, (le_abs_self _).trans (h.abs_le n hn hx)⟩

/-- The units of such a value. -/
theorem RoundsTo.exists_units {v : F64} {s : Bool} {x : ℚ} (h : RoundsTo s v x) {n : Nat} (hn : n ≤ 65536) (hx : |x| ≤ n) :
    ∃ m, v = .fin s m ∧ m ≤ n * 2 ^ 1074 := by
  obtain ⟨m, rfl⟩ := h.finite
  exact ⟨m, rfl, (F64.abs_value_fin_le_iff s m n).1 (h.abs_le n hn hx)⟩

/-- The quotient of two integers of at most 16 bits. -/
theorem roundsTo_ratio {a c : Nat} (ha : a ≤ 65535) (hc : 0 < c) : RoundsTo false (fDiv (F64.ofNat a) (F64.ofNat c)) (a / c) := by
  have ha' : (a : ℚ) ≤ 65535 := by exact_mod_cast ha
  have hc' : (1 : ℚ) ≤ c := by exact_mod_cast hc
  have h := roundsTo_fDiv ⟨_, rfl⟩ (v := F64.ofNat a) (s := false) c hc (by
    rw [F64.value_ofNat, abs_of_nonneg (by positivity)]
    exact (div_le_self (Nat.cast_nonneg a) hc').trans (by linarith))
  rwa [F64.value_ofNat] at h

/-- A quotient of at most 1. -/
theorem abs_ratio_le_one {a c : Nat} (h : a ≤ c) : |(a : ℚ) / c| ≤ (1 : Nat) := by
  rw [abs_of_nonneg (by positivity), Nat.cast_one]
  exact div_le_one_of_le₀ (by exact_mod_cast h) (Nat.cast_nonneg c)

/-- The byte as a fraction of 255, as all dequantizers begin. -/
theorem roundsTo_unitByte (b : Byte) :
    RoundsTo false (fDiv (F64.ofNat b.toNat) (F64.ofNat 255)) (b.toNat / 255) ∧
    0 ≤ (fDiv (F64.ofNat b.toNat) (F64.ofNat 255)).value ∧ (fDiv (F64.ofNat b.toNat) (F64.ofNat 255)).value ≤ 1 := by
  have hb : b.toNat ≤ 255 := Nat.le_of_lt_succ b.isLt
  have h := roundsTo_ratio (a := b.toNat) (by omega) (by decide : 0 < 255)
  obtain ⟨hlo, hhi⟩ := h.mem_Icc (by decide) (abs_ratio_le_one hb)
  exact ⟨by exact_mod_cast h, hlo, by exact_mod_cast hhi⟩

/-- The hue of a byte (R89): rounded from an exact value in [0, 359] that is within `2^-28` of `359 b / 255`. -/
theorem roundsTo_dequantizeHue (b : Byte) :
    ∃ x : ℚ, RoundsTo false (fMul (fDiv (F64.ofNat b.toNat) (F64.ofNat 255)) (F64.ofNat 359)) x ∧
      |x| ≤ 359 ∧ |x - b.toNat / 255 * 359| ≤ 1 / 2 ^ 28 := by
  obtain ⟨hunit, hlo, hhi⟩ := roundsTo_unitByte b
  have habs : |(fDiv (F64.ofNat b.toNat) (F64.ofNat 255)).value * (359 : Nat)| ≤ 359 := by
    rw [abs_le]; constructor <;> push_cast <;> linarith
  refine ⟨_, roundsTo_fMul hunit.finite 359 (habs.trans (by norm_num)), habs, ?_⟩
  have hnear := abs_le.1 hunit.near
  rw [abs_le]
  push_cast
  constructor <;> linarith

/-- The chroma or lightness of a byte (R90, R91): rounded from an exact value in [-1, 1] that is within `2^-30` of `2b/255 - 1`. -/
theorem roundsTo_dequantizeAxis (b : Byte) :
    ∃ (r : Bool) (x : ℚ), RoundsTo r (dequantizeAxis (F64.ofNat b.toNat)) x ∧
      |x| ≤ 1 ∧ |x - (2 * (b.toNat / 255) - 1)| ≤ 1 / 2 ^ 30 := by
  obtain ⟨hunit, hlo, hhi⟩ := roundsTo_unitByte b
  have hnear := abs_le.1 hunit.near
  have hdouble_abs : |(fDiv (F64.ofNat b.toNat) (F64.ofNat 255)).value * (2 : Nat)| ≤ (2 : Nat) := by
    rw [abs_le]; constructor <;> push_cast <;> linarith
  have hdouble := roundsTo_fMul hunit.finite 2 (hdouble_abs.trans (by norm_num))
  have hdouble_near := abs_le.1 hdouble.near
  obtain ⟨hdouble_lo, hdouble_hi⟩ := hdouble.mem_Icc (by decide) hdouble_abs
  push_cast at hdouble_near hdouble_hi
  have habs : |(fMul (fDiv (F64.ofNat b.toNat) (F64.ofNat 255)) (F64.ofNat 2)).value - (1 : Nat)| ≤ 1 := by
    rw [abs_le]; constructor <;> push_cast <;> linarith
  obtain ⟨r, hsum⟩ := roundsTo_fSub_ofNat hdouble.finite 1 (habs.trans (by norm_num))
  refine ⟨r, _, hsum, habs, ?_⟩
  rw [abs_le]
  push_cast
  constructor <;> linarith

/-- It is not 0, since no byte lies half way: `2b/255 - 1` is an odd multiple of `1/255`. -/
theorem dequantizeAxis_ne_zero (b : Byte) : (dequantizeAxis (F64.ofNat b.toNat)).value ≠ 0 := by
  obtain ⟨r, x, hround, -, hx⟩ := roundsTo_dequantizeAxis b
  have hnear := abs_le.1 hround.near
  rw [abs_le] at hx
  intro hzero
  rw [hzero] at hnear
  rcases Nat.lt_or_ge b.toNat 128 with hlow | hhigh
  · have : (b.toNat : ℚ) ≤ 127 := by exact_mod_cast Nat.le_of_lt_succ hlow
    linarith
  · have : (128 : ℚ) ≤ b.toNat := by exact_mod_cast hhigh
    linarith

/-- Settles O25. -/
theorem dqhDequantizesHue : Obligations.DqhDequantizesHue := by
  unfold Obligations.DqhDequantizesHue
  refine ⟨by decide, fun s => ⟨_, rfl, ?_, ?_, finishFloat_eq _ s⟩⟩
  all_goals obtain ⟨x, hround, habs, -⟩ := roundsTo_dequantizeHue s.regs.qbyte
  · exact hround.exists_units (by decide) (by exact_mod_cast habs)
  · exact hround.pattern

/-- What R90 and R91 say of the value: its range, that it is no zero, and that the pattern in `F` is its own. -/
theorem dequantizeAxis_spec (b : Byte) :
    (∃ n m, dequantizeAxis (F64.ofNat b.toNat) = .fin n m ∧ m ≤ 2 ^ 1074 ∧ m ≠ 0) ∧
    f64bits (dequantizeAxis (F64.ofNat b.toNat)).bits = dequantizeAxis (F64.ofNat b.toNat) := by
  obtain ⟨r, x, hround, habs, -⟩ := roundsTo_dequantizeAxis b
  obtain ⟨m, hv, hm⟩ := hround.exists_units (n := 1) (by decide) (by exact_mod_cast habs)
  refine ⟨⟨r, m, hv, by rwa [Nat.one_mul] at hm, ?_⟩, hround.pattern⟩
  rintro rfl
  have hne := dequantizeAxis_ne_zero b
  rw [hv] at hne
  cases r <;> simp [F64.value_fin, signedUnits] at hne

/-- Settles O26. -/
theorem dqcDequantizesChroma : Obligations.DqcDequantizesChroma := by
  unfold Obligations.DqcDequantizesChroma
  refine ⟨by decide, fun s => ?_⟩
  obtain ⟨hrange, hpattern⟩ := dequantizeAxis_spec s.regs.qbyte
  exact ⟨_, rfl, hrange, hpattern, finishFloat_eq _ s⟩

/-- Settles O27. -/
theorem dqlDequantizesLightness : Obligations.DqlDequantizesLightness := by
  unfold Obligations.DqlDequantizesLightness
  refine ⟨by decide, fun s => ?_⟩
  obtain ⟨hrange, hpattern⟩ := dequantizeAxis_spec s.regs.qbyte
  exact ⟨_, rfl, hrange, hpattern, finishFloat_eq _ s⟩

/-! ### The alpha commands -/

theorem bits_zero : (F64.ofNat 0).bits = 0 := by rw [← f64bits_zero, bits_f64bits (by decide)]
theorem bits_one : (F64.ofNat 1).bits = 0x3FF0000000000000#64 := by rw [← f64bits_one, bits_f64bits (by decide)]

theorem nativeNA_le (r : Regs) : r.nativeNA ≤ 65535 := Nat.le_of_lt_succ (r.native.extractLsb' 16 16).isLt
theorem nativeNC_le (r : Regs) : r.nativeNC ≤ 65535 := Nat.le_of_lt_succ (r.native.extractLsb' 0 16).isLt

theorem nativeNA_eq_zero_iff (r : Regs) : r.nativeNA = 0 ↔ r.native.extractLsb' 16 16 = 0 := by
  rw [← BitVec.toNat_inj]
  rfl

/-- R93: with no alpha, `+0.0`. -/
theorem exec_unpremul_of_zero {s : State} (h : s.regs.nativeNA = 0) :
    exec .unpremul s = .next (withRegs s { s.regs with f := 0, errLast := 0 }) := by
  change execUnpremul s = _
  rw [execUnpremul, if_pos h, finishFloat_eq, bits_zero]

/-- R93: else the quotient, where it is at most `1.0`, and `1.0` above. -/
theorem exec_unpremul_of_pos {s : State} (h : 0 < s.regs.nativeNA) :
    exec .unpremul s = finishFloat
      (if F64.lt (F64.ofNat 1) (fDiv (F64.ofNat s.regs.nativeNC) (F64.ofNat s.regs.nativeNA)) then F64.ofNat 1
        else fDiv (F64.ofNat s.regs.nativeNC) (F64.ofNat s.regs.nativeNA)) s := by
  change execUnpremul s = _
  rw [execUnpremul, if_neg h.ne']

/-- A quotient of at least 1, limited to `1.0`, is `1.0`. -/
theorem limited_ratio_eq_one {a c : Nat} (ha : a ≤ 65535) (hc : 0 < c) (h : c ≤ a) :
    (if F64.lt (F64.ofNat 1) (fDiv (F64.ofNat a) (F64.ofNat c)) then F64.ofNat 1 else fDiv (F64.ofNat a) (F64.ofNat c)) = F64.ofNat 1 := by
  have hround := roundsTo_ratio ha hc
  have hone : ((1 : Nat) : ℚ) ≤ |(a : ℚ) / c| := by
    rw [abs_of_nonneg (by positivity), Nat.cast_one, one_le_div (by exact_mod_cast hc)]
    exact_mod_cast h
  have hge := hround.le_abs 1 (by decide) hone
  obtain ⟨m, hv⟩ := hround.finite
  rw [hv, abs_of_nonneg (F64.value_fin_false_nonneg m), ← F64.value_ofNat, F64.ofNat, ← F64.le_fin_iff] at hge
  rw [hv]
  split
  · rfl
  · rename_i hlt
    exact F64.eq_fin_of_key_eq (by decide) (by decide) (F64.key_eq_of_le hge (Bool.eq_false_iff.2 hlt)).symm

/-- A quotient of at most 1: its units, its pattern, and that the limit does not touch it. -/
theorem ratio_le_one_spec {a c : Nat} (hc : 0 < c) (hc' : c ≤ 65535) (h : a ≤ c) :
    ∃ m, m ≤ 2 ^ 1074 ∧ fDiv (F64.ofNat a) (F64.ofNat c) = .fin false m ∧ f64bits (F64.fin false m).bits = .fin false m ∧
      F64.lt (F64.ofNat 1) (.fin false m) = false := by
  have hround := roundsTo_ratio (h.trans hc') hc
  obtain ⟨m, hv, hm⟩ := hround.exists_units (by decide) (abs_ratio_le_one h)
  obtain ⟨-, hle⟩ := hround.mem_Icc (by decide) (abs_ratio_le_one h)
  have hpattern := hround.pattern
  rw [hv] at hpattern hle
  rw [← F64.value_ofNat, F64.ofNat, ← F64.le_fin_iff] at hle
  exact ⟨m, by rwa [Nat.one_mul] at hm, hv, hpattern, F64.lt_false_of_le hle⟩

/-- Settles O29. -/
theorem unpremulDividesByAlpha : Obligations.UnpremulDividesByAlpha := by
  unfold Obligations.UnpremulDividesByAlpha
  refine ⟨by decide, fun s h => exec_unpremul_of_zero ((nativeNA_eq_zero_iff _).2 h), fun s hne hle => ?_, fun s hlt => ?_⟩
  · have hpos : 0 < s.regs.nativeNA := Nat.pos_of_ne_zero (mt (nativeNA_eq_zero_iff _).1 hne)
    have hle : s.regs.nativeNA ≤ s.regs.nativeNC := BitVec.le_def.1 hle
    rw [exec_unpremul_of_pos hpos, limited_ratio_eq_one (nativeNC_le _) hpos hle, finishFloat_eq, bits_one]
  · have hlt : s.regs.nativeNC < s.regs.nativeNA := BitVec.lt_def.1 hlt
    have hpos : 0 < s.regs.nativeNA := by omega
    obtain ⟨m, hm, hv, hpattern, hlimit⟩ := ratio_le_one_spec hpos (nativeNA_le _) hlt.le
    refine ⟨m, hm, hv, hpattern, ?_⟩
    rw [exec_unpremul_of_pos hpos, hv, hlimit, finishFloat_eq]
    rfl

/-- Settles O30. -/
theorem nalphaNormalizesAlpha : Obligations.NalphaNormalizesAlpha := by
  unfold Obligations.NalphaNormalizesAlpha
  refine ⟨by decide, fun s => ?_⟩
  obtain ⟨m, hm, hv, hpattern, -⟩ := ratio_le_one_spec (by decide) le_rfl (nativeNA_le s.regs)
  refine ⟨m, hm, hv, hpattern, ?_⟩
  change finishFloat (fDiv (F64.ofNat s.regs.nativeNA) (F64.ofNat 65535)) s = _
  rw [hv, finishFloat_eq]

end Sys2Proof.Machine
end

section
/-!
PROOFS. The round trips of `41_color.md` section 5 (R95 to R97, R100): each command's result is known up to the errors of its roundings,
and so is the next one's (O31 to O34).
-/

namespace Sys2Proof.Machine

open Sys2Proof.Claims

/-! ### `QH` and `QA`, from bounds on their operand -/

/-- The byte of `(v / 360) * 255`: the nearest to `v * 255 / 360`, with room for the two roundings. -/
theorem qbyteStep_quantizeHue {v : F64} {s : Bool} (hv : ∃ m, v = .fin s m) {b : Nat} (hb : b ≤ 255)
    (hlo : ((b : ℚ) - 1 / 2) / 255 * 360 + 1 / 2 ^ 20 ≤ v.value) (hhi : v.value ≤ ((b : ℚ) + 1 / 2) / 255 * 360 - 1 / 2 ^ 20) :
    qbyteStep (fMul (fDiv v (F64.ofNat 360)) (F64.ofNat 255)) .nearest = (BitVec.ofNat 8 b, false) := by
  have hb' : (b : ℚ) ≤ 255 := by exact_mod_cast hb
  have hpos : (0 : ℚ) ≤ b := Nat.cast_nonneg b
  have hquot := roundsTo_fDiv hv 360 (by decide) (by rw [abs_le]; constructor <;> push_cast <;> linarith)
  have hquot_near := abs_le.1 hquot.near
  push_cast at hquot_near
  have hscaled := roundsTo_fMul hquot.finite 255 (by rw [abs_le]; constructor <;> push_cast <;> linarith)
  have hscaled_near := abs_le.1 hscaled.near
  push_cast at hscaled_near
  exact qbyteStep_of_value hscaled.finite hb (by linarith) (by linarith)

/-- The byte of `v * 255` for a value close to that of the byte. -/
theorem qbyteStep_quantizeAlpha {v : F64} {s : Bool} (hv : ∃ m, v = .fin s m) {b : Nat} (hb : b ≤ 255)
    (hnear : |v.value - b / 255| ≤ 1 / 2 ^ 20) :
    qbyteStep (fMul v (F64.ofNat 255)) .nearest = (BitVec.ofNat 8 b, false) := by
  have hb' : (b : ℚ) ≤ 255 := by exact_mod_cast hb
  have hpos : (0 : ℚ) ≤ b := Nat.cast_nonneg b
  rw [abs_le] at hnear
  have hscaled := roundsTo_fMul hv 255 (by rw [abs_le]; constructor <;> push_cast <;> linarith)
  have hscaled_near := abs_le.1 hscaled.near
  push_cast at hscaled_near
  exact qbyteStep_of_value hscaled.finite hb (by linarith) (by linarith)

/-! ### Two commands, the second on the first one's result -/

/-- A command that writes the float `v`, then one that makes a byte of what it reads back. -/
theorem float_then_byte {i j : Instr} {s : State} {v : F64} {t : F64 → F64} {b : Byte}
    (hi : exec i s = finishFloat v s) (hj : ∀ u, exec j u = finishByte (qbyteStep (t (f64bits u.regs.f)) .nearest) u)
    (hv : f64bits v.bits = v) (hb : qbyteStep (t v) .nearest = (b, false)) :
    ∃ u w, exec i s = .next u ∧ exec j u = .next w ∧ u.regs.f = v.bits ∧ w.regs.qbyte = b := by
  have hend : exec j (withRegs s { s.regs with f := v.bits, errLast := 0 }) =
      finishByte (b, false) (withRegs s { s.regs with f := v.bits, errLast := 0 }) := by
    rw [hj]
    change finishByte (qbyteStep (t (f64bits v.bits)) .nearest) _ = _
    rw [hv, hb]
  exact ⟨_, _, hi.trans (finishFloat_eq v s), hend.trans (finishByte_byte b _), rfl, rfl⟩

/-! ### The hue -/

/-- R95: the byte that `QH` makes of the hue that `DQH` made of `b`. -/
def hueTrip (b : Nat) : Nat := if b ≤ 180 then b else b - 1

/-- The factor 359 of `DQH` against the 360 of `QH` takes `b / 360` from the byte: less than a half below 180, more than a half above,
and at 180 exactly the tie, which no rounding on the way moves. -/
theorem qbyteStep_dequantizeHue (b : Byte) :
    qbyteStep (fMul (fDiv (fMul (fDiv (F64.ofNat b.toNat) (F64.ofNat 255)) (F64.ofNat 359)) (F64.ofNat 360)) (F64.ofNat 255)) .nearest =
      (BitVec.ofNat 8 (hueTrip b.toNat), false) := by
  have hb : b.toNat ≤ 255 := Nat.le_of_lt_succ b.isLt
  have hpos : (0 : ℚ) ≤ b.toNat := Nat.cast_nonneg _
  obtain ⟨x, hround, -, hx⟩ := roundsTo_dequantizeHue b
  rw [abs_le] at hx
  have hnear := abs_le.1 hround.near
  unfold hueTrip
  rcases Nat.lt_trichotomy b.toNat 180 with hlow | htie | hhigh
  · have hb' : (b.toNat : ℚ) ≤ 179 := by exact_mod_cast Nat.le_of_lt_succ hlow
    rw [if_pos hlow.le]
    exact qbyteStep_quantizeHue hround.finite hb (by linarith) (by linarith)
  · rw [htie]
    decide +kernel
  · have hb' : (181 : ℚ) ≤ b.toNat := by exact_mod_cast hhigh
    have hb255 : (b.toNat : ℚ) ≤ 255 := by exact_mod_cast hb
    have hcast : ((b.toNat - 1 : Nat) : ℚ) = b.toNat - 1 := Nat.cast_pred (by omega)
    rw [if_neg (by omega)]
    exact qbyteStep_quantizeHue hround.finite (by omega) (by rw [hcast]; linarith) (by rw [hcast]; linarith)

/-- Settles O31. -/
theorem hueRoundTripDriftsAbove180 : Obligations.HueRoundTripDriftsAbove180 := by
  unfold Obligations.HueRoundTripDriftsAbove180
  intro s
  obtain ⟨x, hround, -, -⟩ := roundsTo_dequantizeHue s.regs.qbyte
  obtain ⟨t, u, hdqh, hqh, hf, hq⟩ := float_then_byte (i := .dqh) (j := .qh) (s := s)
    (t := fun v => fMul (fDiv v (F64.ofNat 360)) (F64.ofNat 255)) rfl (fun _ => rfl) hround.pattern
    (qbyteStep_dequantizeHue s.regs.qbyte)
  refine ⟨t, u, hdqh, hqh, fun h181 => ?_, ?_⟩
  · rw [hf, Regs.qbyteFloat, h181]
    decide +kernel
  · have hlt : hueTrip s.regs.qbyte.toNat < 2 ^ 8 := by
      have := s.regs.qbyte.isLt
      unfold hueTrip
      split <;> omega
    rw [hq, BitVec.toNat_ofNat, Nat.mod_eq_of_lt hlt, hueTrip]

/-! ### Chroma and lightness -/

/-- R96 for the formulas: `clamp1` keeps the dequantized value, and the quantizer finds the byte again. -/
theorem qbyteStep_dequantizeAxis (b : Byte) :
    qbyteStep (quantizeAxis (dequantizeAxis (F64.ofNat b.toNat))) .nearest = (b, false) := by
  obtain ⟨r, x, hround, habs, hx⟩ := roundsTo_dequantizeAxis b
  have hclamp : clamp1 (dequantizeAxis (F64.ofNat b.toNat)) = dequantizeAxis (F64.ofNat b.toNat) :=
    clamp1_of_abs_le hround.finite (by exact_mod_cast hround.abs_le 1 (by decide) (by exact_mod_cast habs))
  have hnear := abs_le.1 hround.near
  rw [abs_le] at hx
  rw [qbyteStep_quantizeAxis (b := b.toNat) (s := r) (by rw [hclamp]; exact hround.finite) (Nat.le_of_lt_succ b.isLt)
    (by rw [hclamp, abs_le]; constructor <;> linarith), BitVec.ofNat_toNat, BitVec.setWidth_eq]

/-- R96 for two commands with these formulas. -/
theorem axisRoundTrip {i j : Instr} (s : State) (hi : exec i s = finishFloat (dequantizeAxis s.regs.qbyteFloat) s)
    (hj : ∀ u, exec j u = finishByte (qbyteStep (quantizeAxis u.regs.float) .nearest) u) :
    ∃ t u, exec i s = .next t ∧ exec j t = .next u ∧ u.regs.qbyte = s.regs.qbyte := by
  obtain ⟨-, hpattern⟩ := dequantizeAxis_spec s.regs.qbyte
  obtain ⟨t, u, ht, hu, -, hq⟩ := float_then_byte hi hj hpattern (qbyteStep_dequantizeAxis s.regs.qbyte)
  exact ⟨t, u, ht, hu, hq⟩

/-- Settles O32. -/
theorem axisRoundTripsAreIdentity : Obligations.AxisRoundTripsAreIdentity :=
  fun s => ⟨axisRoundTrip s rfl fun _ => rfl, axisRoundTrip s rfl fun _ => rfl⟩

/-! ### The native alpha -/

/-- R97: a native alpha of `257 k` is the fraction `k / 255` of the full scale, so `NALPHA` then `QA` give `k`. -/
theorem nalpha_then_qa {s : State} {k : Nat} (hk : k ≤ 255) (h : s.regs.nativeNA = 257 * k) :
    ∃ t u, exec .nalpha s = .next t ∧ exec .qa t = .next u ∧ u.regs.qbyte = BitVec.ofNat 8 k := by
  have hround := roundsTo_ratio (nativeNA_le s.regs) (by decide : 0 < Config.nativeFullScale)
  have hfraction : (s.regs.nativeNA : ℚ) / Config.nativeFullScale = k / 255 := by
    rw [h, Config.nativeFullScale]
    push_cast
    ring
  have hnear := hround.near
  rw [hfraction] at hnear
  obtain ⟨t, u, ht, hu, -, hq⟩ := float_then_byte (i := .nalpha) (j := .qa) (s := s) (t := fun v => fMul v (F64.ofNat 255))
    rfl (fun _ => rfl) hround.pattern (qbyteStep_quantizeAlpha hround.finite hk (hnear.trans (by norm_num)))
  exact ⟨t, u, ht, hu, hq⟩

/-- Settles O33. -/
theorem nativeAlphaOfAByteGivesTheByte : Obligations.NativeAlphaOfAByteGivesTheByte := by
  unfold Obligations.NativeAlphaOfAByteGivesTheByte
  intro s k hk h
  obtain ⟨t, u, ht, hu, hq⟩ := nalpha_then_qa hk h
  exact ⟨t, u, ht, hu, by rw [hq, BitVec.toNat_ofNat, Nat.mod_eq_of_lt (by omega)]⟩

/-- R100, R92: a finite component times an alpha byte of 0 is a zero. -/
theorem qbyteStep_fin_mul_zero (s : Bool) (m : Nat) (mode : Config.RoundMode) :
    qbyteStep (fMul (.fin s m) (F64.ofNat 0)) mode = (0, false) := by
  rw [F64.ofNat, fMul_fin, Nat.zero_mul, Nat.mul_zero, F64.round_zero _ _ unitsPerOne_pos]
  cases s <;> cases mode <;> decide

/-- Settles O34. -/
theorem alphaZeroIsStable : Obligations.AlphaZeroIsStable := by
  unfold Obligations.AlphaZeroIsStable
  refine ⟨fun s h => ?_, fun s n m habyte hf => ?_⟩
  · have hna := (nativeNA_eq_zero_iff _).2 h
    exact ⟨⟨_, exec_unpremul_of_zero hna, rfl⟩, nalpha_then_qa (k := 0) (by decide) hna⟩
  · have hq : exec .premul s = finishByte (qbyteStep (fMul (f64bits s.regs.f) (F64.ofNat s.regs.abyte.toNat)) s.platform.premulRound) s :=
      rfl
    rw [hq, hf, habyte]
    exact ⟨_, (congrArg (finishByte · s) (qbyteStep_fin_mul_zero n m _)).trans (finishByte_byte 0 s), rfl, rfl⟩

end Sys2Proof.Machine
end

section
/-!
PROOFS. Errors (`60_exceptions.md`): what a failing command word leaves (O38), the cause of each error code (O39), and the events that
can set `ERR_FIRST` and `NAN` back to 0 (O60).
-/

namespace Sys2Proof.Machine

open Sys2Proof.Claims

/-! ### Errors are precise -/

/-- R57: a word other than that of `CLEAR` decodes to another command. -/
theorem ne_clear_of_decode {w : Word} {i : Instr} (hi : decode w = .ok i) (hw : w ≠ encode .clear) : i ≠ .clear := by
  rintro rfl
  exact hw ((decode_eq_ok_iff_eq_encode w .clear).1 hi)

/-- Settles O38: a word that raises an error leaves the failed state, and a successful one other than `CLEAR` keeps `ERR_FIRST`. -/
theorem errorsArePrecise : Obligations.ErrorsArePrecise := by
  unfold Obligations.ErrorsArePrecise
  intro w s t h
  obtain ⟨e, he⟩ | ⟨i, r, hi, hr, hlegal⟩ := runCommand_raises_or_succeeds w s
  · obtain rfl := (raiseError_next_iff e s t).1 (he ▸ h)
    exact ⟨fun _ => rfl, fun hzero => absurd hzero (errorNumber_ne_zero e)⟩
  · obtain rfl := (succeed_next_iff r s t).1 (hr ▸ h)
    refine ⟨fun hne => absurd (recordSuccess_errLast r) hne, fun _ hw => ?_⟩
    rw [recordSuccess_errFirst, hlegal.errFirst, if_neg (ne_clear_of_decode hi hw)]

/-! ### The cause of each error code -/

/-- R101: the cause of an error, for the command word `w` in the state `s`. -/
def Causes (w : Word) (s : State) : ErrorCode → Prop
  | .illegalCommand => ∀ i, w ≠ encode i
  | .invalidOrder => w = encode .setn ∧ ¬ LegalOrder s.regs.nreq.toNat
  | .unsupportedDimensions =>
    w = encode .setdim ∧ (Config.dimMax < s.regs.width.toNat ∨ Config.dimMax < s.regs.height.toNat)
  | .distanceOutOfRange => w = encode .d2xy ∧ s.regs.order.toNat * s.regs.order.toNat ≤ s.regs.dist.toNat
  | .coordinateOutOfRange =>
    w = encode .xy2d ∧ (s.regs.order.toNat ≤ s.regs.coordX ∨ s.regs.order.toNat ≤ s.regs.coordY)

theorem runCommand_encode (i : Instr) (s : State) : runCommand (encode i) s = exec i s :=
  runCommand_of_decode _ s i (decode_encode i)

/-- R73: `SETN` on a request that is no legal order. -/
theorem exec_setn_of_not_legalOrder {s : State} (h : ¬ LegalOrder s.regs.nreq.toNat) :
    exec .setn s = .next (failedWith 2 s) := by
  obtain ⟨-, -, hrejects⟩ := setnInstallsPowersOfTwo
  exact hrejects s h

/-- R101: each cause raises its own error. -/
theorem runCommand_of_causes {w : Word} {s : State} {e : ErrorCode} (h : Causes w s e) :
    runCommand w s = .next (failedWith (errorNumber e) s) := by
  cases e with
  | illegalCommand => exact runCommand_of_ne_encode h s
  | invalidOrder =>
    obtain ⟨rfl, hillegal⟩ := h
    exact (runCommand_encode _ s).trans (exec_setn_of_not_legalOrder hillegal)
  | unsupportedDimensions =>
    obtain ⟨rfl, hlarge⟩ := h
    exact (runCommand_encode _ s).trans (exec_setdim_of_lt hlarge)
  | distanceOutOfRange =>
    obtain ⟨rfl, hrange⟩ := h
    exact (runCommand_encode _ s).trans (exec_d2xy_of_le hrange)
  | coordinateOutOfRange =>
    obtain ⟨rfl, hrange⟩ := h
    exact (runCommand_encode _ s).trans (exec_xy2d_of_le hrange)

/-- R101, R106: a command without its cause of failure succeeds. -/
theorem causes_or_exec_succeeds (i : Instr) (s : State) :
    (∃ e, Causes (encode i) s e) ∨ ∃ r, exec i s = succeed r s := by
  cases i with
  | setn =>
    by_cases h : LegalOrder s.regs.nreq.toNat
    · exact .inr ⟨_, if_neg (setn_accepts_of_legalOrder h)⟩
    · exact .inl ⟨.invalidOrder, rfl, h⟩
  | setdim =>
    by_cases h : Config.dimMax < s.regs.width.toNat ∨ Config.dimMax < s.regs.height.toNat
    · exact .inl ⟨.unsupportedDimensions, rfl, h⟩
    · exact .inr ⟨_, if_neg h⟩
  | d2xy =>
    by_cases h : s.regs.order.toNat * s.regs.order.toNat ≤ s.regs.dist.toNat
    · exact .inl ⟨.distanceOutOfRange, rfl, h⟩
    · exact .inr ⟨_, if_neg h⟩
  | xy2d =>
    by_cases h : s.regs.order.toNat ≤ s.regs.coordX ∨ s.regs.order.toNat ≤ s.regs.coordY
    · exact .inl ⟨.coordinateOutOfRange, rfl, h⟩
    · exact .inr ⟨_, if_neg h⟩
  | unpremul =>
    by_cases h : s.regs.nativeNA = 0
    · exact .inr ⟨_, if_pos h⟩
    · exact .inr ⟨_, if_neg h⟩
  | nop | clear | bounds | qh | qc | ql | qa | dqh | dqc | dql | premul | nalpha => exact .inr ⟨_, rfl⟩

/-- So does a command word (R57, R106). -/
theorem causes_or_runCommand_succeeds (w : Word) (s : State) :
    (∃ e, Causes w s e) ∨ ∃ r, runCommand w s = succeed r s := by
  by_cases hw : ∃ i, w = encode i
  · obtain ⟨i, rfl⟩ := hw
    rw [runCommand_encode]
    exact causes_or_exec_succeeds i s
  · exact .inl ⟨.illegalCommand, not_exists.1 hw⟩

/-- R101: the code gives the error back, since the codes 1 to 5 number the errors in their order. -/
theorem errorNumber_injective : Function.Injective errorNumber :=
  Function.LeftInverse.injective (g := fun code => ErrorCode.ofNat (code.toNat - 1)) fun e => by cases e <;> rfl

section Codes

variable {w : Word} {s t : State}

/-- R101: a word whose error has its cause leaves that error's code. -/
theorem errLast_of_causes (h : runCommand w s = .next t) {e : ErrorCode} (he : Causes w s e) : t.regs.errLast = errorNumber e := by
  obtain rfl : failedWith (errorNumber e) s = t := by simpa [runCommand_of_causes he] using h
  rfl

/-- R101, R104: the code a word leaves is that of its cause, and 0 where it has none. -/
theorem causes_or_errLast_zero (h : runCommand w s = .next t) :
    (∃ e, Causes w s e ∧ t.regs.errLast = errorNumber e) ∨ t.regs.errLast = 0 := by
  obtain ⟨e, he⟩ | ⟨r, hr⟩ := causes_or_runCommand_succeeds w s
  · exact .inl ⟨e, he, errLast_of_causes h he⟩
  · obtain rfl := (succeed_next_iff r s t).1 (hr ▸ h)
    exact .inr (recordSuccess_errLast r)

/-- R101: a word leaves the code of an error exactly where that error has its cause. -/
theorem errLast_eq_errorNumber_iff (h : runCommand w s = .next t) (e : ErrorCode) :
    t.regs.errLast = errorNumber e ↔ Causes w s e := by
  constructor
  · intro hcode
    obtain ⟨e', he', hcode'⟩ | hzero := causes_or_errLast_zero h
    · obtain rfl := errorNumber_injective (hcode'.symm.trans hcode)
      exact he'
    · exact absurd (hcode.symm.trans hzero) (errorNumber_ne_zero e)
  · exact errLast_of_causes h

/-- R101: only the codes 0 to 5 are left. -/
theorem errLast_cases (h : runCommand w s = .next t) :
    t.regs.errLast = 0 ∨ t.regs.errLast = 1 ∨ t.regs.errLast = 2 ∨ t.regs.errLast = 3 ∨ t.regs.errLast = 4 ∨
      t.regs.errLast = 5 := by
  obtain ⟨e, -, hcode⟩ | hzero := causes_or_errLast_zero h
  · rw [hcode]
    cases e <;> decide
  · exact .inl hzero

end Codes

/-- Settles O39: each clause is the cause of one error. -/
theorem errorCodesNameTheirCause : Obligations.ErrorCodesNameTheirCause :=
  fun _ _ _ h => ⟨errLast_cases h, errLast_eq_errorNumber_iff h .illegalCommand, errLast_eq_errorNumber_iff h .invalidOrder,
    errLast_eq_errorNumber_iff h .unsupportedDimensions, errLast_eq_errorNumber_iff h .distanceOutOfRange,
    errLast_eq_errorNumber_iff h .coordinateOutOfRange⟩

/-! ### What clears the sticky fields -/

/-- All that a step can do to the registers: nothing, a bus write outside `CMD`, a command word, or a reset. -/
theorem step_regs_cases {s t : State} (h : step s = .next t) :
    t.regs = s.regs ∨ (∃ off v, t.regs = writeWindow off v s.regs) ∨
    (∃ w, servesCommand s w ∧ runCommand w { s with pending := s.pending.tail } = .next t) ∨ servesReset s := by
  obtain ⟨-, rfl⟩ | ⟨a, rest, hp, ha⟩ | ⟨b, rest, hp, rfl⟩ | ⟨rest, hp, rfl⟩ := step_next_cases s t h
  · exact .inl rfl
  · obtain ⟨hr, ⟨off, -, rfl⟩ | ⟨off, v, -, -, rfl⟩ | ⟨w, rfl, hw⟩ | ⟨-, rfl⟩⟩ := serveAccess_next_cases a _ t ha
    · exact .inl rfl
    · exact .inr (.inl ⟨off, v, rfl⟩)
    · exact .inr (.inr (.inl ⟨w, ⟨hr, rest, hp⟩, by rwa [hp]⟩))
    · exact .inl rfl
  · cases b with
    | true => exact .inl rfl
    | false =>
      by_cases hr : s.inReset = true
      · exact .inr (.inr (.inr (.inl ⟨hr, by rw [hp, List.head?_cons]⟩)))
      · exact .inl ((resetLine_false_regs _).trans (if_neg hr))
  · exact .inr (.inr (.inr (.inr (by rw [hp, List.head?_cons]))))

/-- R108: neither sticky field of `STATUS` goes back to 0 between the registers `r` and `r'` (R17, R19). -/
structure KeepsSticky (r r' : Regs) : Prop where
  errFirst : r.errFirst ≠ 0 → r'.errFirst ≠ 0
  nan : r.nan = true → r'.nan = true

theorem KeepsSticky.of_eq {r r' : Regs} (hfirst : r'.errFirst = r.errFirst) (hnan : r'.nan = r.nan) : KeepsSticky r r' :=
  ⟨fun h => by rwa [hfirst], fun h => hnan.trans h⟩

/-- R15, R40: a bus write outside `CMD` does not reach `STATUS`. -/
theorem keepsSticky_writeWindow (off : Nat) (v : Word) (r : Regs) : KeepsSticky r (writeWindow off v r) := by
  cases ha : regAt off with
  | none =>
    rw [writeWindow_of_regAt_none ha]
    exact .of_eq rfl rfl
  | some a =>
    obtain rfl := (regAt_eq_some_iff off a).1 ha
    rw [writeWindow_offset]
    exact .of_eq (writeReg_errFirst r v a) (writeReg_nan r v a)

/-- R19: of the commands, only `CLEAR` clears `NAN`. -/
theorem nan_of_exec {i : Instr} {s t : State} (hi : i ≠ .clear) (h : exec i s = .next t) (hnan : s.regs.nan = true) :
    t.regs.nan = true := by
  have hrow := withinRow_of_exec h
  cases hn : setsNan i with
  | true => exact hrow.nanSticky hn hnan
  | false => exact (hrow.nanKept hn hi).trans hnan

/-- R108: a command word other than `CLEAR` clears neither sticky field. -/
theorem keepsSticky_runCommand {w : Word} {s t : State} (hw : w ≠ encode .clear) (h : runCommand w s = .next t) :
    KeepsSticky s.regs t.regs where
  errFirst hne ht := hne (errFirst_zero_before_runCommand hw h ht).1
  nan hnan := by
    obtain ⟨i, hi, hrun⟩ | ⟨-, hrun⟩ := runCommand_cases w s
    · exact nan_of_exec (ne_clear_of_decode hi hw) (hrun ▸ h) hnan
    · obtain rfl := (raiseError_next_iff _ s t).1 (hrun ▸ h)
      exact hnan

/-- R108: a step keeps the sticky fields, serves `CLEAR`, or resets. -/
theorem step_keepsSticky_or {s t : State} (h : step s = .next t) :
    KeepsSticky s.regs t.regs ∨ servesCommand s (encode .clear) ∨ servesReset s := by
  obtain hregs | ⟨off, v, hregs⟩ | ⟨w, hserves, hrun⟩ | hreset := step_regs_cases h
  · exact .inl (hregs ▸ .of_eq rfl rfl)
  · exact .inl (hregs ▸ keepsSticky_writeWindow off v s.regs)
  · by_cases hw : w = encode .clear
    · exact .inr (.inl (hw ▸ hserves))
    · exact .inl (keepsSticky_runCommand (s := { s with pending := s.pending.tail }) hw hrun)
  · exact .inr (.inr hreset)

/-- Settles O60: a step that keeps the sticky fields clears neither. -/
theorem onlyClearAndResetClearStickyFields : Obligations.OnlyClearAndResetClearStickyFields := by
  unfold Obligations.OnlyClearAndResetClearStickyFields
  intro s t hstep hcleared
  obtain ⟨hfirst, hnan⟩ | hevent := step_keepsSticky_or hstep
  · obtain ⟨hset, hzero⟩ | ⟨hset, hfalse⟩ := hcleared
    · exact absurd hzero (hfirst hset)
    · exact absurd ((hnan hset).symm.trans hfalse) (by decide)
  · exact hevent

end Sys2Proof.Machine
end

section
/-!
PROOFS. Waiting, reset and hazards (`70_reset_and_hazards.md`): every command completes (O35), the step without an event (O54), the
reset events (O56), and the events that can change `ORDER` (O59).
-/

namespace Sys2Proof.Machine

open Sys2Proof.Claims

/-! ### Commands complete -/

/-- Settles O35: the error procedure and success, the two ways a command can end, replace the registers alone. -/
theorem everyCommandCompletes : Obligations.EveryCommandCompletes := by
  unfold Obligations.EveryCommandCompletes
  intro i s
  obtain ⟨e, he⟩ | ⟨r, hr, -⟩ := exec_raises_or_succeeds i s
  · exact ⟨recordError e s.regs, he⟩
  · exact ⟨recordSuccess r, hr⟩

/-! ### Steps without an access -/

/-- Settles O54. -/
theorem tfxWaitsForTheHost : Obligations.TfxWaitsForTheHost := by
  unfold Obligations.TfxWaitsForTheHost
  intro s h
  simp only [step, nextEvent, h]

section Events

variable {s : State} {rest : List Event}

/-- A step whose next event is a change of the reset input makes that change (R117). -/
theorem step_of_resetLine {asserted : Bool} (h : s.pending = .resetLine asserted :: rest) :
    step s = .next (resetLine asserted { s with pending := rest }) := by
  simp only [step, nextEvent, h, serveEvent]

/-- A step whose next event is a power cycle resets the registers (R116). -/
theorem step_of_powerCycle (h : s.pending = .powerCycle :: rest) : step s = .next (resetRegs { s with pending := rest }) := by
  simp only [step, nextEvent, h, serveEvent]

end Events

/-- R117: the release of an asserted reset input puts the registers at their reset values. -/
theorem resetLine_false_of_inReset {s : State} (h : s.inReset = true) :
    resetLine false s = { s with regs := Regs.reset, inReset := false } := by
  simp [resetLine, h, resetRegs]

/-- Settles O56: the first of the two steps asserts the input, so the second is a release of an asserted input. -/
theorem resetReachesTheResetState : Obligations.ResetReachesTheResetState := by
  unfold Obligations.ResetReachesTheResetState
  intro s rest
  constructor
  · intro h
    have hassert := step_of_resetLine h
    have hrelease := step_of_resetLine (s := resetLine true { s with pending := .resetLine false :: rest }) rfl
    rw [resetLine_false_of_inReset rfl] at hrelease
    exact ⟨_, _, hassert, resetLine_true_inReset _, hrelease, rfl⟩
  · exact step_of_powerCycle

/-! ### What changes `ORDER` -/

/-- R58: the rows of `SETN` and `SETDIM` are the ones that write `ORDER`. -/
theorem order_mem_writes_iff (i : Instr) : .order ∈ writes i ↔ i = .setn ∨ i = .setdim := by cases i <;> decide

/-- R21: no bus write outside `CMD` reaches `ORDER`. -/
theorem writeWindow_order (off : Nat) (v : Word) (r : Regs) : (writeWindow off v r).order = r.order := by
  cases ha : regAt off with
  | none => rw [writeWindow_of_regAt_none ha]
  | some a =>
    obtain rfl := (regAt_eq_some_iff off a).1 ha
    rw [writeWindow_offset, writeReg_order]

/-- R125: a command word keeps `ORDER` or is that of `SETN` or `SETDIM`. -/
theorem runCommand_keepsOrder_or {w : Word} {s t : State} (h : runCommand w s = .next t) :
    t.regs.order = s.regs.order ∨ w = encode .setn ∨ w = encode .setdim := by
  obtain ⟨i, hi, hrun⟩ | ⟨-, hrun⟩ := runCommand_cases w s
  · obtain rfl := (decode_eq_ok_iff_eq_encode w i).1 hi
    by_cases hwrites : .order ∈ writes i
    · obtain rfl | rfl := (order_mem_writes_iff i).1 hwrites
      · exact .inr (.inl rfl)
      · exact .inr (.inr rfl)
    · exact .inl (order_eq_of_readReg ((withinRow_of_exec (hrun ▸ h)).window .order hwrites (by decide)))
  · obtain rfl := (raiseError_next_iff _ s t).1 (hrun ▸ h)
    exact .inl (recordError_order _ s.regs)

/-- R125: a step keeps `ORDER`, serves `SETN` or `SETDIM`, or resets. -/
theorem step_keepsOrder_or {s t : State} (h : step s = .next t) :
    t.regs.order = s.regs.order ∨ servesCommand s (encode .setn) ∨ servesCommand s (encode .setdim) ∨ servesReset s := by
  obtain hregs | ⟨off, v, hregs⟩ | ⟨w, hserves, hrun⟩ | hreset := step_regs_cases h
  · exact .inl (congrArg Regs.order hregs)
  · exact .inl ((congrArg Regs.order hregs).trans (writeWindow_order off v s.regs))
  · obtain hkept | rfl | rfl := runCommand_keepsOrder_or hrun
    · exact .inl hkept
    · exact .inr (.inl hserves)
    · exact .inr (.inr (.inl hserves))
  · exact .inr (.inr (.inr hreset))

/-- Settles O59: a step that changes `ORDER` is one of the three that do not keep it. -/
theorem orderChangesOnlyBySetnSetdimReset : Obligations.OrderChangesOnlyBySetnSetdimReset := by
  unfold Obligations.OrderChangesOnlyBySetnSetdimReset
  intro s t hstep hchanged
  exact (step_keepsOrder_or hstep).resolve_left hchanged

end Sys2Proof.Machine
end
